-- ==== Sys2Proof/Word.lean ====
section
/-! DEFINITION. The word types of SHA256CORE (00_scope.md R5, R7): unsigned bit vectors, bit 0 the least significant. -/

namespace Sys2Proof

/-- A data word: unsigned, 32 bits (R5 `WORD_W`, R7). -/
abbrev Word := BitVec 32

/-- A byte: unsigned, 8 bits (R7). -/
abbrev Byte := BitVec 8

/-- A command word `cmd[63:0]`: a number, without a byte order (30_encoding.md R90). -/
abbrev CommandWord := BitVec 64

/-- The index operand of format I, `cmd[55:0]`, and the width of the block index register (R92, R93, R31). -/
abbrev Index := BitVec 56

end Sys2Proof
end

