-- ==== Sys2Proof/Config.lean ====
section
/-! DEFINITION. What is fixed for the machine: the parameters the document fixes (00_scope.md R5) and the formula for
the capacity it derives from the one open parameter (R6). `MSG_CAP` itself is a field of State (`State.msgCap`), so that every
statement holds for every value of it; only its value in State.reset is fixed here (log entry 3). -/

namespace Sys2Proof.Config

/-- Bytes in a block (R5 `BLOCK_BYTES`). -/
abbrev blockBytes : Nat := 64

/-- Rounds applied to a block, and words in its schedule (R5 `NROUNDS`, `SCHED_LEN`). -/
abbrev nRounds : Nat := 64

/-- The first padding byte (R5). -/
abbrev padMark : Byte := 0x80#8

/-- The fill byte (R5). -/
abbrev padFill : Byte := 0x00#8

/-- Capacity of the padded-message memory, derived from `MSG_CAP` (R6). -/
def pmsgCap (msgCap : Nat) : Nat := 64 * ((msgCap + 8) / 64 + 1)

/-- The value of the open parameter `MSG_CAP` in State.reset: the largest that `0 <= MSG_CAP < 2^61` admits (R6).
DESIGN CHOICE, unsafe: log entry 3. No statement rests on it. -/
def resetMsgCap : BitVec 61 := BitVec.allOnes 61

end Sys2Proof.Config
end

