-- ==== Sys2Proof/Syntax.lean ====
section
/-! DEFINITION. The commands of SHA256CORE, one constructor for each row of spec/opcode_table.json (30_encoding.md R94). -/

namespace Sys2Proof

/-- The nine commands. Only `BLK` and `RND` carry an operand, the 56-bit unsigned index of format I (R92, R93);
its width is in its type, so every term of `Instr` is a command that has a word. -/
inductive Instr where
  /-- Pad the message (41_padder.md R142). -/
  | pad
  /-- Load the hash state from the table `IV` (45_compressor.md R181). -/
  | hinit
  /-- Copy the hash state to the working state (45_compressor.md R182). -/
  | winit
  /-- Load block `idx` of the padded message (42_block_parser.md R152). -/
  | blk (idx : Index)
  /-- Expand the block to the message schedule (43_message_scheduler.md R163). -/
  | sched
  /-- Apply compression round `idx` (44_compression_round.md R172). -/
  | rnd (idx : Index)
  /-- Add the working state into the hash state (45_compressor.md R183). -/
  | acc
  /-- Render the digest as text (46_digest_formatter.md R201). -/
  | fmt
  /-- The whole digest in one command (45_compressor.md R191). -/
  | hash
  deriving DecidableEq, Repr

end Sys2Proof
end

