-- ==== Sys2Proof/WellFormed.lean ====
section
/-! DEFINITION. What makes a command word's fields, and a line of assembler, well formed (30_encoding.md R91 to R95, R98).
The index of an `Instr` has its width in its type, so the checks stand on the two outer forms: the fields of a raw word and
the source line with its unbounded number. -/

namespace Sys2Proof

/-- The two formats (R91, R92). -/
inductive Format where
  /-- No operand; bits 55 to 0 must be zero. -/
  | n
  /-- Index operand in bits 55 to 0. -/
  | i
  deriving DecidableEq, Repr

/-- The mnemonics of the assembler notation (R98). -/
inductive Mnemonic where
  | PAD | HINIT | WINIT | BLK | SCHED | RND | ACC | FMT | HASH
  deriving DecidableEq, Repr

/-- The format of a mnemonic (R94). -/
def Mnemonic.format : Mnemonic → Format
  | .PAD => .n
  | .HINIT => .n
  | .WINIT => .n
  | .BLK => .i
  | .SCHED => .n
  | .RND => .i
  | .ACC => .n
  | .FMT => .n
  | .HASH => .n

/-- The opcode of a mnemonic, `cmd[63:56]` (R94). -/
def Mnemonic.opcode : Mnemonic → BitVec 8
  | .PAD => 0x01#8
  | .HINIT => 0x02#8
  | .WINIT => 0x03#8
  | .BLK => 0x04#8
  | .SCHED => 0x05#8
  | .RND => 0x06#8
  | .ACC => 0x07#8
  | .FMT => 0x08#8
  | .HASH => 0x09#8

/-- The two fields of a command word: `op = cmd[63:56]` and the low 56 bits (R91, R92). -/
structure Fields where
  op  : BitVec 8
  low : Index
  deriving DecidableEq, Repr

/-- The opcodes that have a command (R95 (a) excludes `0x00` and `0x0A` to `0xFF`). -/
def Fields.assigned (f : Fields) : Bool := 0x01#8 ≤ f.op && f.op ≤ 0x09#8

/-- The opcodes of format I: `BLK` and `RND` (R94). -/
def Fields.hasIndex (f : Fields) : Bool := f.op == 0x04#8 || f.op == 0x06#8

/-- A word's fields are legal unless its opcode is unassigned (R95 (a)) or a format N opcode comes with low bits set (R95 (b)). -/
def Fields.wf (f : Fields) : Bool := f.assigned && (f.hasIndex || f.low == 0#56)

/-- One command of the assembler notation: a mnemonic and, for format I, one unsigned operand (R98). -/
structure SourceLine where
  mnemonic : Mnemonic
  operand  : Option Nat
  deriving DecidableEq, Repr

/-- Format N takes no operand; format I takes one, below `2^56` (R98). -/
def SourceLine.wf (l : SourceLine) : Bool :=
  match l.mnemonic.format, l.operand with
  | .n, none => true
  | .n, some _ => false
  | .i, none => false
  | .i, some k => decide (k < 2 ^ 56)

end Sys2Proof
end

