-- ==== Sys2Proof/Decode.lean ====
section
/-! DEFINITION. Decoding and encoding of command words (30_encoding.md R90 to R98). Decoding is total, looks at no state, and
rejects by name; the encoder is written from the same table. -/

namespace Sys2Proof

/-- Why a word is illegal (R95). -/
inductive IllegalWord where
  /-- R95 (a): the opcode has no command. -/
  | unassignedOpcode (op : BitVec 8)
  /-- R95 (b): a format N opcode with some of bits 55 to 0 set. -/
  | lowBitsSet (op : BitVec 8) (low : Index)
  deriving DecidableEq, Repr

/-- The fields of a word (R91, R92). -/
def splitWord (w : CommandWord) : Fields := ⟨w.extractLsb' 56 8, w.setWidth 56⟩

/-- The word with given fields (R91, R92). -/
def joinFields (op : BitVec 8) (low : Index) : CommandWord := op ++ low

/-- A format N command: the low bits must be zero (R91, R95 (b)). -/
def formatN (i : Instr) (f : Fields) : Except IllegalWord Instr :=
  if f.low = 0#56 then .ok i else .error (.lowBitsSet f.op f.low)

/-- The command that a word's fields stand for (R94), or why they stand for none (R95). -/
def decodeFields (f : Fields) : Except IllegalWord Instr :=
  if f.op = 0x01#8 then formatN .pad f
  else if f.op = 0x02#8 then formatN .hinit f
  else if f.op = 0x03#8 then formatN .winit f
  else if f.op = 0x04#8 then .ok (.blk f.low)
  else if f.op = 0x05#8 then formatN .sched f
  else if f.op = 0x06#8 then .ok (.rnd f.low)
  else if f.op = 0x07#8 then formatN .acc f
  else if f.op = 0x08#8 then formatN .fmt f
  else if f.op = 0x09#8 then formatN .hash f
  else .error (.unassignedOpcode f.op)

/-- Total decoding of a 64-bit word (R96). -/
def decode (w : CommandWord) : Except IllegalWord Instr := decodeFields (splitWord w)

/-- The word of a command (R94): format N has zero low bits, format I its index. -/
def encode : Instr → CommandWord
  | .pad => joinFields 0x01#8 0#56
  | .hinit => joinFields 0x02#8 0#56
  | .winit => joinFields 0x03#8 0#56
  | .blk idx => joinFields 0x04#8 idx
  | .sched => joinFields 0x05#8 0#56
  | .rnd idx => joinFields 0x06#8 idx
  | .acc => joinFields 0x07#8 0#56
  | .fmt => joinFields 0x08#8 0#56
  | .hash => joinFields 0x09#8 0#56

/-- The instruction that the decoder reads from the row's word: a command is one 64-bit word, so bit 0 of the table's
numbering is bit 0 of the word; bits from `nbits` up are zero (R90, R97; log entry 15). -/
def decodeTableWord (nbits w : Nat) : Option Instr :=
  match decode (BitVec.ofNat 64 (w % 2 ^ nbits)) with
  | .ok i => some i
  | .error _ => none

/-- One row of the opcode map: a word `w` selects it when `w and mask = bits` (R94). -/
structure OpcodeRow where
  mnemonic : Mnemonic
  bits     : CommandWord
  mask     : CommandWord
  deriving DecidableEq, Repr

/-- The opcode map with its match and mask columns, in the order of R94. -/
def opcodeMap : List OpcodeRow := [
  ⟨.PAD,   0x0100000000000000#64, 0xFFFFFFFFFFFFFFFF#64⟩,
  ⟨.HINIT, 0x0200000000000000#64, 0xFFFFFFFFFFFFFFFF#64⟩,
  ⟨.WINIT, 0x0300000000000000#64, 0xFFFFFFFFFFFFFFFF#64⟩,
  ⟨.BLK,   0x0400000000000000#64, 0xFF00000000000000#64⟩,
  ⟨.SCHED, 0x0500000000000000#64, 0xFFFFFFFFFFFFFFFF#64⟩,
  ⟨.RND,   0x0600000000000000#64, 0xFF00000000000000#64⟩,
  ⟨.ACC,   0x0700000000000000#64, 0xFFFFFFFFFFFFFFFF#64⟩,
  ⟨.FMT,   0x0800000000000000#64, 0xFFFFFFFFFFFFFFFF#64⟩,
  ⟨.HASH,  0x0900000000000000#64, 0xFFFFFFFFFFFFFFFF#64⟩]

/-- A word selects a row (R94). -/
def OpcodeRow.selects (r : OpcodeRow) (w : CommandWord) : Bool := w &&& r.mask == r.bits

/-- The mnemonic of a command (R94). -/
def Instr.mnemonic : Instr → Mnemonic
  | .pad => .PAD
  | .hinit => .HINIT
  | .winit => .WINIT
  | .blk _ => .BLK
  | .sched => .SCHED
  | .rnd _ => .RND
  | .acc => .ACC
  | .fmt => .FMT
  | .hash => .HASH

/-- The command of an assembler line, where the line is well formed (R98). -/
def SourceLine.assemble (l : SourceLine) : Option Instr :=
  match l.mnemonic, l.operand with
  | .PAD, none => some .pad
  | .HINIT, none => some .hinit
  | .WINIT, none => some .winit
  | .BLK, some k => if k < 2 ^ 56 then some (.blk (BitVec.ofNat 56 k)) else none
  | .SCHED, none => some .sched
  | .RND, some k => if k < 2 ^ 56 then some (.rnd (BitVec.ofNat 56 k)) else none
  | .ACC, none => some .acc
  | .FMT, none => some .fmt
  | .HASH, none => some .hash
  | _, _ => none

/-- Pseudo-instruction `ROUNDS`, for the first `n` rounds: `RND 0; ...; RND (n-1)`; the notation's own is `n = 64` (R99).
For `n > 2^56`, which the notation does not have, the index is taken modulo `2^56` (log entry 20). -/
def roundsSeq : Nat → List Instr
  | 0 => []
  | n + 1 => roundsSeq n ++ [.rnd (BitVec.ofNat 56 n)]

/-- Pseudo-instruction `BLOCK i` (R99). R98 encodes `BLK n` only for `n < 2^56`, so the spec gives no expansion for a larger `i`; this
total function then takes the index modulo `2^56`: the model's choice, which no run of `HASH` or `HASHSEQ NBLK` reaches (log entry 20). -/
def blockSeq (i : Nat) : List Instr :=
  [.winit, .blk (BitVec.ofNat 56 i), .sched] ++ roundsSeq 64 ++ [.acc]

/-- `BLOCK 0; ...; BLOCK (n-1)` (R99); for `n > 2^56` as `blockSeq` says (log entry 20). -/
def blocksSeq : Nat → List Instr
  | 0 => []
  | n + 1 => blocksSeq n ++ blockSeq n

/-- Pseudo-instruction `HASHSEQ n` (R99); for `n > 2^56` as `blockSeq` says (log entry 20). -/
def hashSeq (n : Nat) : List Instr := [.pad, .hinit] ++ blocksSeq n ++ [.fmt]

end Sys2Proof
end

