-- ==== Sys2Proof/Machine/State.lean ====
section
/-! DEFINITION. The state of SHA256CORE as plain data (10_state.md R20), the reasons a step stops, and the state after reset
(R50). -/

namespace Sys2Proof.Machine

/-- The byte memories (20_memory.md R60). -/
inductive Space where
  | msg
  | pmsg
  deriving DecidableEq, Repr

/-- The nine phases of the sequencer (10_state.md R30). Codes 8 to 14 are never held (U5; log entry 12). -/
inductive Phase where
  /-- After reset; the host may load the message. -/
  | idle
  /-- The padded message and `PLEN` are there. -/
  | padded
  /-- `H` is the hash state before block `BI`. -/
  | ready
  /-- `S` is a copy of `H`. -/
  | wset
  /-- `BLKR` holds block `BI`. -/
  | loaded
  /-- `W` holds the schedule of block `BI`; `T` rounds are done. -/
  | rounds
  /-- All blocks are absorbed. -/
  | done
  /-- `HEX` holds the digest text; terminal. -/
  | final
  /-- A fault was taken; terminal. -/
  | fault
  deriving DecidableEq, Repr

/-- The fault codes held in `FC` (R38, 60_exceptions.md R210). Codes 5 to 15 are never held (U5; log entry 12). -/
inductive FaultCode where
  | none
  | outOfRange
  | badPhase
  | badIndex
  | illegalCmd
  deriving DecidableEq, Repr

/-- The named ports through which the host reads registers, status outputs and views (R26, R35, R40, R41). -/
inductive HostReg where
  | ph | bi | t | mlen | plen | fc | fcmd | status
  | hashValid | done | fault
  | s (i : Fin 8)
  | h (i : Fin 8)
  | w (i : Fin 64)
  | blkr (i : Fin 64)
  | hex (i : Fin 64)
  | digestByte (i : Fin 32)
  deriving DecidableEq, Repr

/-- Which of the five data register files a command has written since reset: a file that none has written "holds no value" (10_state.md
R51), which decides whether a host read of it has a result (log entry 7). No step
stops or changes for it. Each file is only ever written whole. -/
structure WrittenFiles where
  s    : Bool
  h    : Bool
  w    : Bool
  blkr : Bool
  hex  : Bool
  deriving DecidableEq, Repr

/-- No file is written: as reset leaves them (R50 `unspecified`). -/
def WrittenFiles.none : WrittenFiles := ⟨false, false, false, false, false⟩

/-- What the host can do to the block, each between commands (20_memory.md R75, 70_reset_and_hazards.md R240, R245). There is no
other move: no port writes `PMSG` or a register other than `MLEN` (R245). -/
inductive HostAction where
  /-- Present a word on the command port (30_encoding.md R90). -/
  | command (w : CommandWord)
  /-- The reset event (R240). -/
  | reset
  /-- Write one byte of the message memory (R61). -/
  | writeMsg (addr : Nat) (b : Byte)
  /-- Write the message length (R36). -/
  | writeMlen (v : BitVec 64)
  /-- Read one byte of a memory (R61, R62). -/
  | readByte (space : Space) (addr : Nat)
  /-- Read a register, output or view (R41). -/
  | readReg (r : HostReg)
  deriving DecidableEq, Repr

/-- A byte memory: (address, byte) pairs with strictly rising addresses; an address that is not listed holds NO VALUE (R51; log
entry 2), so no entry can equal what an unlisted address reads as. -/
abbrev Memory := List Host.Cell

/-- Why a step stops with a fault of the MODEL (the hardware's own faults are next states with `PH = FAULT`, R215). -/
inductive Fault where
  /-- Raised by PAD, HASH (reading MSG) and BLK (reading PMSG) on a byte that holds no value: "a model must not give it
  one" (10_state.md R51, U2). Safe: the model stops where the hardware goes on with some byte. Log entry 2. -/
  | unwrittenRead (space : Space) (addr : Nat)
  deriving DecidableEq, Repr

/-- Why a step has no meaning. -/
inductive Refusal where
  /-- Raised by an arm of exec whose instruction has no meaning yet; no arm does now. Safe. -/
  | notModelled (mnemonic : String)
  /-- Raised by PAD and HASH when `MLEN > MSG_CAP`: "the model refuses it (gives it no step and no value)" (41_padder.md R145, U1).
  Safe. Log entry 6. -/
  | messageBeyondCapacity
  /-- Raised by a host access to an address outside a memory: "the model refuses it" (20_memory.md R69, U10). Safe. Log entry 7. -/
  | hostNoSuchAddress (space : Space) (addr : Nat)
  /-- Raised by a host read of a memory byte that nothing has written: "a model should treat such a read as having no
  defined result" (10_state.md R51, U2, U3). Safe. Log entry 7. -/
  | hostUnwrittenRead (space : Space) (addr : Nat)
  deriving DecidableEq, Repr

/-- The complete state of the block (R20), its parameter, and the queue of the host's pending actions. -/
structure State where
  /-- WorkingState `S[0..7]`, aliases `a` to `h` in that order (R21). -/
  s      : Vector Word 8
  /-- HashState `H[0..7]` (R22). -/
  h      : Vector Word 8
  /-- MessageSchedule `W[0..63]` (R23). -/
  w      : Vector Word 64
  /-- Block register `BLKR[0..63]` (R24). -/
  blkr   : Vector Byte 64
  /-- Digest text register `HEX[0..63]` (R25). -/
  hex    : Vector Byte 64
  /-- Phase register `PH` (R30): what a program counter is elsewhere. -/
  ph     : Phase
  /-- Block index register `BI` (R31). -/
  bi     : BitVec 56
  /-- Round index register `T` (R32). -/
  t      : BitVec 7
  /-- Message length `MLEN` in bytes (R36). -/
  mlen   : BitVec 64
  /-- Padded length `PLEN` in bytes (R37). -/
  plen   : BitVec 64
  /-- Fault code `FC` (R38). -/
  fc     : FaultCode
  /-- The faulting word `FCMD` (R39). -/
  fcmd   : CommandWord
  /-- The Message memory `MSG` (R44). -/
  msg    : Memory
  /-- The PaddedMessage memory `PMSG` (R45). -/
  pmsg   : Memory
  /-- The parameter `MSG_CAP` (R6), which no step changes: the model's own field (log entry 3). -/
  msgCap : BitVec 61
  /-- Which data register files a command has written since reset (R51): the model's own field (log entry 7). -/
  written : WrittenFiles
  /-- The host's pending actions, oldest first, in the one total order of R75: the model's own field (log entry 4). -/
  port   : List HostAction
  deriving DecidableEq, Repr

/-- The machine right after reset at power-up (R50). The registers R50 calls unspecified hold 0 (DESIGN CHOICE, log entry 1) and count
as not written (log entry 7); the memories list nothing (log entry 2); the parameter has the value of Config (log entry 3); nothing is pending (log entry 4). -/
def State.reset : State where
  s      := Vector.replicate 8 0#32
  h      := Vector.replicate 8 0#32
  w      := Vector.replicate 64 0#32
  blkr   := Vector.replicate 64 0#8
  hex    := Vector.replicate 64 0#8
  ph     := .idle
  bi     := 0#56
  t      := 0#7
  mlen   := 0#64
  plen   := 0#64
  fc     := .none
  fcmd   := 0#64
  msg    := []
  pmsg   := []
  msgCap := Config.resetMsgCap
  written := .none
  port   := []

end Sys2Proof.Machine
end

