-- ==== Sys2Proof/Machine/Ops.lean ====
section
/-! DEFINITION. The named operations over memory and registers, fault entry (60_exceptions.md R215), the phase test that every
command makes (R216), and the sequencing of outcomes. There is no return from a fault: "the only exit is reset" (R217). -/

namespace Sys2Proof.Machine

/-! ### Memory -/

/-- Canonical form: strictly rising addresses. -/
def Memory.wf : Memory → Bool
  | [] => true
  | [_] => true
  | c :: d :: rest => decide (c.1 < d.1) && Memory.wf (d :: rest)

/-- The byte at an address, or none where the address holds no value (10_state.md R51). -/
def Memory.read : Memory → Nat → Option Byte
  | [], _ => none
  | c :: rest, a => if c.1 = a then some c.2 else if a < c.1 then none else Memory.read rest a

/-- Store one byte, keeping the canonical form. -/
def Memory.write : Memory → Nat → Byte → Memory
  | [], a, b => [(a, b)]
  | c :: rest, a, b =>
    if a < c.1 then (a, b) :: c :: rest
    else if c.1 = a then (a, b) :: rest
    else c :: Memory.write rest a b

/-- `MemRead(space, addr, n)`: `n` bytes in increasing address order (00_scope.md R10), or none where one of them holds no
value. -/
def Memory.readBytes (m : Memory) : Nat → Nat → Option (List Byte)
  | _, 0 => some []
  | a, n + 1 =>
    match m.read a with
    | none => none
    | some b =>
      match Memory.readBytes m (a + 1) n with
      | none => none
      | some bs => some (b :: bs)

/-- The first of `n` addresses from `a` that holds no value (`a + n` where there is none): what a stopped read reports. -/
def Memory.firstUnwritten (m : Memory) : Nat → Nat → Nat
  | a, 0 => a
  | a, n + 1 =>
    match m.read a with
    | none => a
    | some _ => Memory.firstUnwritten m (a + 1) n

/-- `MemWrite(space, addr, n, v)`: store a byte sequence at increasing addresses (R10). -/
def Memory.writeBytes (m : Memory) : Nat → List Byte → Memory
  | _, [] => m
  | a, b :: bs => (Memory.writeBytes m (a + 1) bs).write a b

/-! ### Register writes, one for each piece of state

A write of a data register file also records that the file holds a value from now on (10_state.md R51). -/

namespace State

/-- `S[0..7] <- v`, all eight together (00_scope.md R11). -/
def setS (s : State) (v : Vector Word 8) : State := { s with s := v, written := { s.written with s := true } }

/-- `H[0..7] <- v`. -/
def setH (s : State) (v : Vector Word 8) : State := { s with h := v, written := { s.written with h := true } }

/-- `W[0..63] <- v`. -/
def setW (s : State) (v : Vector Word 64) : State := { s with w := v, written := { s.written with w := true } }

/-- `BLKR[0..63] <- v`. -/
def setBlkr (s : State) (v : Vector Byte 64) : State := { s with blkr := v, written := { s.written with blkr := true } }

/-- `HEX[0..63] <- v`. -/
def setHex (s : State) (v : Vector Byte 64) : State := { s with hex := v, written := { s.written with hex := true } }

/-- `PH <- v`: selects what may execute next (R10). -/
def setPh (s : State) (v : Phase) : State := { s with ph := v }

/-- `BI <- v`. -/
def setBi (s : State) (v : BitVec 56) : State := { s with bi := v }

/-- `T <- v`. -/
def setT (s : State) (v : BitVec 7) : State := { s with t := v }

/-- `MLEN <- v`: the host's write (10_state.md R36). -/
def setMlen (s : State) (v : BitVec 64) : State := { s with mlen := v }

/-- `PLEN <- v`. -/
def setPlen (s : State) (v : BitVec 64) : State := { s with plen := v }

/-- `FC <- v`. -/
def setFc (s : State) (v : FaultCode) : State := { s with fc := v }

/-- `FCMD <- v`. -/
def setFcmd (s : State) (v : CommandWord) : State := { s with fcmd := v }

/-- The message memory becomes `v`. -/
def setMsg (s : State) (v : Memory) : State := { s with msg := v }

/-- The padded-message memory becomes `v`. -/
def setPmsg (s : State) (v : Memory) : State := { s with pmsg := v }

/-- The pending actions become `v` (log entry 4). -/
def setPort (s : State) (v : List HostAction) : State := { s with port := v }

end State

/-! ### Outcomes, fault entry and the phase test -/

/-- What a step of this machine answers. -/
abbrev Result := Host.Outcome State Fault Refusal

/-- Run `f` on the next state; a stop stays a stop. -/
def andThen (r : Result) (f : State → Result) : Result :=
  match r with
  | .next s => f s
  | .fault e => .fault e
  | .refused e => .refused e

/-- Fault entry (R215): `FC <- c`, `FCMD <- cmd`, `PH <- FAULT`, and nothing else. -/
def takeFault (c : FaultCode) (cmd : CommandWord) (s : State) : State :=
  ((s.setFc c).setFcmd cmd).setPh .fault

/-- The phase test that precedes every command (R216 (2)): in `FAULT` the word is discarded (R217); where the command is not
legal, `BAD_PHASE` with the command's word in `FCMD` (R212); otherwise its effect. The word is `encode i`, the only word that decodes
to `i` (log entry 5). -/
def whenLegal (i : Instr) (legal : Bool) (effect : State → Result) (s : State) : Result :=
  if s.ph = .fault then .next s
  else if legal then effect s
  else .next (takeFault .badPhase (encode i) s)

end Sys2Proof.Machine
end

