-- ==== Sys2Proof/Machine/Operands.lean ====
section
/-! DEFINITION. Operands: the index a command carries and what it is compared with (30_encoding.md R93), the block count
(10_state.md R31), and the byte-order helpers (00_scope.md R9, 20_memory.md R64). -/

namespace Sys2Proof.Machine

/-- The view `NBLK = PLEN / 64` (R31, R37). -/
def State.nblk (s : State) : Nat := s.plen.toNat / 64

/-- `idx >= NBLK`, compared as unsigned numbers (R93, 42_block_parser.md R153). -/
def idxOutOfRange (idx : Index) (s : State) : Bool := decide (s.nblk ≤ idx.toNat)

/-- `idx != BI` (42_block_parser.md R154). -/
def idxIsNotBlock (idx : Index) (s : State) : Bool := idx != s.bi

/-- `idx != zext_56(T)` (44_compression_round.md R172, R174). -/
def idxIsNotRound (idx : Index) (s : State) : Bool := idx != s.t.setWidth 56

/-- The byte address of block `idx`: `start = 64 * idx` (R93, 42_block_parser.md R151). -/
def blockStart (idx : Index) : Nat := 64 * idx.toNat

/-- A register file written whole: element `i` is `f i` (00_scope.md R11). Built over a list, so that comparing two states does not
run through its elements. -/
def tabulate {α : Type} {n : Nat} (f : Fin n → α) : Vector α n := ⟨⟨List.ofFn f⟩, by simp⟩

/-- Four bytes combined big-endian, the first the most significant (R9, R64 (a)). -/
def be32 (b0 b1 b2 b3 : Byte) : Word := b0 ++ b1 ++ b2 ++ b3

/-- `be64bytes(v)`: byte `j` is `(v >> (56 - 8*j)) and 0xFF`, most significant first (R9, R64 (b)). -/
def be64bytes (v : BitVec 64) : List Byte :=
  [v.extractLsb' 56 8, v.extractLsb' 48 8, v.extractLsb' 40 8, v.extractLsb' 32 8,
   v.extractLsb' 24 8, v.extractLsb' 16 8, v.extractLsb' 8 8, v.extractLsb' 0 8]

end Sys2Proof.Machine
end

