-- ==== Sys2Proof/Machine/Flags.lean ====
section
/-! DEFINITION. The block has no condition codes (10_state.md R35); this file holds what it has instead: the register codes, the
three status outputs, and the view `STATUS` (R30, R38, R35, R40). -/

namespace Sys2Proof.Machine

/-- The 4-bit code of a phase (R30). -/
def Phase.code : Phase → BitVec 4
  | .idle => 0#4
  | .padded => 1#4
  | .ready => 2#4
  | .wset => 3#4
  | .loaded => 4#4
  | .rounds => 5#4
  | .done => 6#4
  | .final => 7#4
  | .fault => 15#4

/-- The 4-bit code of a fault (R38, 60_exceptions.md R210). -/
def FaultCode.code : FaultCode → BitVec 4
  | .none => 0#4
  | .outOfRange => 1#4
  | .badPhase => 2#4
  | .badIndex => 3#4
  | .illegalCmd => 4#4

/-- Output `hash_valid = (PH = DONE or PH = FINAL)` (R35). -/
def State.hashValid (s : State) : Bool := s.ph = .done || s.ph = .final

/-- Output `done = (PH = FINAL)` (R35). -/
def State.doneOut (s : State) : Bool := s.ph = .final

/-- Output `fault = (PH = FAULT)` (R35). -/
def State.faultOut (s : State) : Bool := s.ph = .fault

/-- The view `STATUS` (R40): bits 3..0 `PH`, 7..4 `FC`, 8 `hash_valid`, 9 `done`, 10 `fault`, the rest zero. -/
def State.status (s : State) : BitVec 32 :=
  0#21 ++ BitVec.ofBool s.faultOut ++ BitVec.ofBool s.doneOut ++ BitVec.ofBool s.hashValid ++ s.fc.code ++ s.ph.code

end Sys2Proof.Machine
end

