-- ==== Sys2Proof/Machine/Constants.lean ====
section
/-! DEFINITION. The two read-only tables (10_state.md R46, 40_constants_and_bitmixers.md R121, R125, R126). Their values are the
spec's, which marks them as taken from general knowledge (K1, K2; log entry 13). -/

namespace Sys2Proof.Machine

/-- The initial hash words `IV[0..7]` (R125). -/
def ivTable : Vector Word 8 :=
  #v[0x6a09e667#32, 0xbb67ae85#32, 0x3c6ef372#32, 0xa54ff53a#32, 0x510e527f#32, 0x9b05688c#32, 0x1f83d9ab#32, 0x5be0cd19#32]

/-- `K[0..15]` (R126). -/
def kTable0 : List Word := [
  0x428a2f98#32, 0x71374491#32, 0xb5c0fbcf#32, 0xe9b5dba5#32, 0x3956c25b#32, 0x59f111f1#32, 0x923f82a4#32, 0xab1c5ed5#32,
  0xd807aa98#32, 0x12835b01#32, 0x243185be#32, 0x550c7dc3#32, 0x72be5d74#32, 0x80deb1fe#32, 0x9bdc06a7#32, 0xc19bf174#32]

/-- `K[16..31]` (R126). -/
def kTable1 : List Word := [
  0xe49b69c1#32, 0xefbe4786#32, 0x0fc19dc6#32, 0x240ca1cc#32, 0x2de92c6f#32, 0x4a7484aa#32, 0x5cb0a9dc#32, 0x76f988da#32,
  0x983e5152#32, 0xa831c66d#32, 0xb00327c8#32, 0xbf597fc7#32, 0xc6e00bf3#32, 0xd5a79147#32, 0x06ca6351#32, 0x14292967#32]

/-- `K[32..47]` (R126). -/
def kTable2 : List Word := [
  0x27b70a85#32, 0x2e1b2138#32, 0x4d2c6dfc#32, 0x53380d13#32, 0x650a7354#32, 0x766a0abb#32, 0x81c2c92e#32, 0x92722c85#32,
  0xa2bfe8a1#32, 0xa81a664b#32, 0xc24b8b70#32, 0xc76c51a3#32, 0xd192e819#32, 0xd6990624#32, 0xf40e3585#32, 0x106aa070#32]

/-- `K[48..63]` (R126). -/
def kTable3 : List Word := [
  0x19a4c116#32, 0x1e376c08#32, 0x2748774c#32, 0x34b0bcb5#32, 0x391c0cb3#32, 0x4ed8aa4a#32, 0x5b9cca4f#32, 0x682e6ff3#32,
  0x748f82ee#32, 0x78a5636f#32, 0x84c87814#32, 0x8cc70208#32, 0x90befffa#32, 0xa4506ceb#32, 0xbef9a3f7#32, 0xc67178f2#32]

/-- The round constants `K[0..63]` in index order (R126). -/
def kTable : List Word := kTable0 ++ kTable1 ++ kTable2 ++ kTable3

/-- `K[i]`. An index outside the table cannot be formed (20_memory.md R63): the one reader, `RND`, is legal only while `T <= 63`. The
default for such an index is the model's (log entry 23). -/
def roundConstant (i : Nat) : Word := kTable.getD i 0#32

end Sys2Proof.Machine
end

