-- ==== Sys2Proof/Machine/Mixers.lean ====
section
/-! DEFINITION. Word arithmetic and the six bit mixers (40_constants_and_bitmixers.md R122 to R133): pure functions on 32-bit
words, without state, flags or faults. -/

namespace Sys2Proof.Machine

/-- Addition modulo `2^32`; the carry out of bit 31 is discarded (R122). -/
def add32 (x y : Word) : Word := x + y

/-- Right rotation by a constant `1 <= n <= 31` (R123). For `n = 0` and `n >= 32`, which do not arise, this total function gives `x` (log
entry 23). -/
def rotr (x : Word) (n : Nat) : Word := (x >>> n) ||| (x <<< (32 - n))

/-- Logical right shift, zero-filled (R124): `floor(x / 2^n)`, for every `n`. -/
def shr (x : Word) (n : Nat) : Word := x >>> n

/-- R127. -/
def sigma0 (x : Word) : Word := rotr x 7 ^^^ rotr x 18 ^^^ shr x 3

/-- R128. -/
def sigma1 (x : Word) : Word := rotr x 17 ^^^ rotr x 19 ^^^ shr x 10

/-- R129. -/
def bigSigma0 (a : Word) : Word := rotr a 2 ^^^ rotr a 13 ^^^ rotr a 22

/-- R130. -/
def bigSigma1 (e : Word) : Word := rotr e 6 ^^^ rotr e 11 ^^^ rotr e 25

/-- R131. -/
def choice (e f g : Word) : Word := (e &&& f) ^^^ (~~~e &&& g)

/-- R132. -/
def majority (a b c : Word) : Word := (a &&& b) ^^^ (a &&& c) ^^^ (b &&& c)

end Sys2Proof.Machine
end

