-- ==== Sys2Proof/Machine/Padder.lean ====
section
/-! DEFINITION. The Padder and the command `PAD` (41_padder.md). -/

namespace Sys2Proof.Machine

/-- How many fill bytes a message of `len` bytes takes: `z = (55 - L) mod 64`, the least `z` with
`(8 * (L + 1 + z)) mod 512 = 448` (R141, R143; log entry 16). -/
def fillCount (len : Nat) : Nat := (119 - len % 64) % 64

/-- `pad(m)` (R141): the message, `0x80`, the fill bytes, the bit length as eight big-endian bytes. The spec
defines it for messages below `2^61` bytes only (R145, U1). On a longer list this total function takes the bit length modulo `2^64`: the
model's choice, which no step of `PAD` or `HASH` reaches (log entry 19). -/
def pad (m : List Byte) : List Byte :=
  m ++ [Config.padMark] ++ List.replicate (fillCount m.length) Config.padFill ++ be64bytes (BitVec.ofNat 64 (8 * m.length))

/-- The effect of `PAD` in `IDLE` (R142). With `MLEN > MSG_CAP` the command has no meaning (R145; log entry 6); a message byte that
holds no value stops it (10_state.md R51; log entry 2). -/
def padEffect (s : State) : Result :=
  if s.msgCap.toNat < s.mlen.toNat then .refused .messageBeyondCapacity
  else
    match s.msg.readBytes 0 s.mlen.toNat with
    | none => .fault (.unwrittenRead .msg (s.msg.firstUnwritten 0 s.mlen.toNat))
    | some m =>
      .next (((s.setPmsg (s.pmsg.writeBytes 0 (pad m))).setPlen (BitVec.ofNat 64 (pad m).length)).setPh .padded)

/-- `PAD`: legal only in `IDLE` (R142). -/
def execPad (s : State) : Result := whenLegal .pad (s.ph = .idle) padEffect s

end Sys2Proof.Machine
end

