-- ==== Sys2Proof/Machine/BlockParser.lean ====
section
/-! DEFINITION. The BlockParser and the command `BLK` (42_block_parser.md). -/

namespace Sys2Proof.Machine

/-- The first 64 bytes of a byte sequence as a block register file. A shorter sequence is filled up with zeros: the model's choice, which
no step reaches (log entry 21). -/
def toBlock (bs : List Byte) : Vector Byte 64 := tabulate fun k => bs.getD k.val 0#8

/-- `block(p, i)` (R151): the half-open slice of 64 bytes from `64*i`; no value for `i >= len(p) / 64`. The spec
defines it for whole blocks only; where `len(p)` is no multiple of 64 a trailing partial block is no block (log entry 21). -/
def block (p : List Byte) (i : Nat) : Option (Vector Byte 64) :=
  if i < p.length / 64 then some (toBlock (p.drop (64 * i))) else none

/-- The effect of `BLK idx` in `WSET`: the range test, then the index test, then the load (R152, R153, R154). -/
def blkEffect (idx : Index) (s : State) : Result :=
  if idxOutOfRange idx s then .next (takeFault .outOfRange (encode (.blk idx)) s)
  else if idxIsNotBlock idx s then .next (takeFault .badIndex (encode (.blk idx)) s)
  else
    match s.pmsg.readBytes (blockStart idx) 64 with
    | none => .fault (.unwrittenRead .pmsg (s.pmsg.firstUnwritten (blockStart idx) 64))
    | some bs => .next ((s.setBlkr (toBlock bs)).setPh .loaded)

/-- `BLK idx`: legal only in `WSET` (R152). -/
def execBlk (idx : Index) (s : State) : Result := whenLegal (.blk idx) (s.ph = .wset) (blkEffect idx) s

end Sys2Proof.Machine
end

