-- ==== Sys2Proof/Machine/Scheduler.lean ====
section
/-! DEFINITION. The MessageScheduler and the command `SCHED` (43_message_scheduler.md). -/

namespace Sys2Proof.Machine

/-- Words 0 to 15: the block's bytes, four at a time, big-endian (R161). -/
def blockWords (b : Vector Byte 64) : List Word :=
  List.ofFn fun i : Fin 16 => be32 b[4 * i.val] b[4 * i.val + 1] b[4 * i.val + 2] b[4 * i.val + 3]

/-- The recurrence for word `i`, on the words before it (R162). Used for `16 <= i <= 63` with all earlier words there; a word that is not
there would read as zero (log entry 23). -/
def scheduleWord (ws : List Word) (i : Nat) : Word :=
  add32 (add32 (add32 (sigma1 (ws.getD (i - 2) 0#32)) (ws.getD (i - 7) 0#32)) (sigma0 (ws.getD (i - 15) 0#32)))
    (ws.getD (i - 16) 0#32)

/-- The next `n` words, in increasing order (R164). -/
def extendSchedule : Nat → List Word → List Word
  | 0, ws => ws
  | n + 1, ws => extendSchedule n (ws ++ [scheduleWord ws ws.length])

/-- `schedule(b)`: 16 words from the block and 48 by the recurrence (R160 to R162). -/
def schedule (b : Vector Byte 64) : Vector Word 64 :=
  tabulate fun i => (extendSchedule 48 (blockWords b)).getD i.val 0#32

/-- The effect of `SCHED` in `LOADED` (R163). -/
def schedEffect (s : State) : Result := .next (((s.setW (schedule s.blkr)).setT 0#7).setPh .rounds)

/-- `SCHED`: legal only in `LOADED` (R163). -/
def execSched (s : State) : Result := whenLegal .sched (s.ph = .loaded) schedEffect s

end Sys2Proof.Machine
end

