-- ==== Sys2Proof/Machine/Round.lean ====
section
/-! DEFINITION. The CompressionRound and the command `RND` (44_compression_round.md). -/

namespace Sys2Proof.Machine

/-- `t1` of a round (R171). -/
def roundT1 (s : Vector Word 8) (w k : Word) : Word :=
  add32 (add32 (add32 (add32 s[7] (bigSigma1 s[4])) (choice s[4] s[5] s[6])) k) w

/-- `t2` of a round (R171). -/
def roundT2 (s : Vector Word 8) : Word := add32 (bigSigma0 s[0]) (majority s[0] s[1] s[2])

/-- `round(s, w, k)` (R171): every right-hand side reads the state before the round (00_scope.md R11). -/
def compressionRound (s : Vector Word 8) (w k : Word) : Vector Word 8 :=
  #v[add32 (roundT1 s w k) (roundT2 s), s[0], s[1], s[2], add32 s[3] (roundT1 s w k), s[4], s[5], s[6]]

/-- `W[t]`. `RND` is legal only while `T <= 63`, so the default is never read (20_memory.md R63; log entry 23). -/
def scheduleEntry (w : Vector Word 64) (t : Nat) : Word := w.toList.getD t 0#32

/-- The effect of `RND idx` in `ROUNDS` with `T < 64`: the index test, then one round (R172, R174). -/
def rndEffect (idx : Index) (s : State) : Result :=
  if idxIsNotRound idx s then .next (takeFault .badIndex (encode (.rnd idx)) s)
  else .next ((s.setS (compressionRound s.s (scheduleEntry s.w s.t.toNat) (roundConstant s.t.toNat))).setT (s.t + 1#7))

/-- `RND idx`: legal only in `ROUNDS` with `T <= 63` (R172). -/
def execRnd (idx : Index) (s : State) : Result :=
  whenLegal (.rnd idx) (s.ph = .rounds && s.t.toNat < 64) (rndEffect idx) s

end Sys2Proof.Machine
end

