-- ==== Sys2Proof/Machine/Compressor.lean ====
section
/-! DEFINITION. The Compressor: the pure function `compress` and the commands `HINIT`, `WINIT`, `ACC` (45_compressor.md). -/

namespace Sys2Proof.Machine

/-- Element-wise addition modulo `2^32`: eight independent lanes (R183). -/
def addLanes (h s : Vector Word 8) : Vector Word 8 := tabulate fun i => add32 h[i] s[i]

/-- The working state after `n` rounds from `s` on the schedule `w` (R190, R184). The spec has 64 rounds; for `n > 64` this total function
goes on with zero words: the model's choice, which no step reaches (log entry 23). -/
def roundsFrom (w : Vector Word 64) (s : Vector Word 8) : Nat → Vector Word 8
  | 0 => s
  | n + 1 => compressionRound (roundsFrom w s n) (scheduleEntry w n) (roundConstant n)

/-- One block absorbed: `h_i+1` from `h_i` and block `i` (R190). -/
def absorb (h : Vector Word 8) (b : Vector Byte 64) : Vector Word 8 :=
  addLanes h (roundsFrom (schedule b) h 64)

/-- The hash state after the first `n` blocks of a padded message (R190). For an `n` beyond the whole blocks of `p` the missing bytes count
as zero: the model's choice, which no step reaches (log entry 21). -/
def hashAfter (p : List Byte) : Nat → Vector Word 8
  | 0 => ivTable
  | n + 1 => absorb (hashAfter p n) (toBlock (p.drop (64 * n)))

/-- `compress(p)` (R190). The spec defines it for a padded message of one or more whole blocks only. On any other list this total function
takes the whole blocks there are, which is none below 64 bytes (the result is then `IV`), and drops a trailing partial block: the
model's choice, which no step reaches (log entry 21). -/
def compress (p : List Byte) : Vector Word 8 := hashAfter p (p.length / 64)

/-- The effect of `HINIT` in `PADDED` (R181). -/
def hinitEffect (s : State) : Result := .next (((s.setH ivTable).setBi 0#56).setPh .ready)

/-- `HINIT`: legal only in `PADDED` (R181). -/
def execHinit (s : State) : Result := whenLegal .hinit (s.ph = .padded) hinitEffect s

/-- The effect of `WINIT` in `READY`: a copy, not a reference (R182, 70_reset_and_hazards.md R251). -/
def winitEffect (s : State) : Result := .next ((s.setS s.h).setPh .wset)

/-- `WINIT`: legal only in `READY` (R182). -/
def execWinit (s : State) : Result := whenLegal .winit (s.ph = .ready) winitEffect s

/-- The phase after `ACC`: `READY` while blocks are left, else `DONE`; `BI` is the value before the command (R183). -/
def phaseAfterAcc (s : State) : Phase := if s.bi.toNat + 1 < s.nblk then .ready else .done

/-- The effect of `ACC` in `ROUNDS` with `T = 64` (R183). -/
def accEffect (s : State) : Result :=
  .next (((s.setH (addLanes s.h s.s)).setBi (s.bi + 1#56)).setPh (phaseAfterAcc s))

/-- `ACC`: legal only in `ROUNDS` with `T = 64` (R183). -/
def execAcc (s : State) : Result := whenLegal .acc (s.ph = .rounds && s.t.toNat = 64) accEffect s

end Sys2Proof.Machine
end

