-- ==== Sys2Proof/Machine/Formatter.lean ====
section
/-! DEFINITION. The DigestFormatter, the command `FMT`, and the digest's views (46_digest_formatter.md, 10_state.md R26). -/

namespace Sys2Proof.Machine

/-- The ASCII code of a lowercase hexadecimal digit (R202). -/
def hexchar (n : BitVec 4) : Byte := if n.toNat ≤ 9 then 0x30#8 + n.setWidth 8 else 0x57#8 + n.setWidth 8

/-- Digit `j` of a word, the most significant first: `(x >> (28 - 4*j)) and 0xF` (R200). Used with `j <= 7` only; above, this total function
gives the last digit (log entry 23). -/
def hexDigit (x : Word) (j : Nat) : BitVec 4 := (x >>> (28 - 4 * j)).setWidth 4

/-- `fmt(h)` (R200): character `8*i + j` is digit `j` of word `i`. -/
def fmt (h : Vector Word 8) : Vector Byte 64 :=
  tabulate fun k => hexchar (hexDigit (h[k.val / 8]'(by have := k.isLt; omega)) (k.val % 8))

/-- The value of a digit character (R203). Not a hardware function: it serves the round-trip property only. The spec defines it for
`0x30` to `0x39` and `0x61` to `0x66` only. For any other byte this total function gives `c - 0x30` (0 below `0x30`) up to `0x39` and
`c - 0x57` (0 below `0x57`) above: the model's choice (log entry 22). -/
def hexval (c : Byte) : Nat := if c.toNat ≤ 0x39 then c.toNat - 0x30 else c.toNat - 0x57

/-- `parse(x)` (R203): word `i` from its eight characters. Not a hardware function. On characters that are no digits the sum can reach `2^32`
and is taken modulo `2^32`: the model's choice (log entry 22). -/
def parse (x : Vector Byte 64) : Vector Word 8 :=
  tabulate fun i => BitVec.ofNat 32
    ((List.ofFn fun j : Fin 8 => hexval (x[8 * i.val + j.val]'(by have := i.isLt; have := j.isLt; omega)) * 16 ^ (7 - j.val)).sum)

/-- The digest of a message as words, `compress(pad(m))` (R190), and as text, `fmt(compress(pad(m)))` (00_scope.md R2). -/
def digestWords (m : List Byte) : Vector Word 8 := compress (pad m)

/-- The digest text (R2). -/
def digest (m : List Byte) : Vector Byte 64 := fmt (digestWords m)

/-- The view `DIGEST_BYTES[4*i + j] = (H[i] >> (24 - 8*j)) and 0xFF` (R26; log entry 17). -/
def digestBytes (h : Vector Word 8) : Vector Byte 32 :=
  tabulate fun k => ((h[k.val / 4]'(by have := k.isLt; omega)) >>> (24 - 8 * (k.val % 4))).setWidth 8

/-- The effect of `FMT` in `DONE` (R201). -/
def fmtEffect (s : State) : Result := .next ((s.setHex (fmt s.h)).setPh .final)

/-- `FMT`: legal only in `DONE` (R201). -/
def execFmt (s : State) : Result := whenLegal .fmt (s.ph = .done) fmtEffect s

end Sys2Proof.Machine
end

