-- ==== Sys2Proof/Machine/Hash.lean ====
section
/-! DEFINITION. The command `HASH`: exactly the effect of its expansion, in one step (45_compressor.md R191, R192; log entry 10). -/

namespace Sys2Proof.Machine

/-- `RND 0; ...; RND (n-1)` (R184). -/
def runRounds : Nat → State → Result
  | 0, s => .next s
  | n + 1, s => andThen (runRounds n s) (execRnd (BitVec.ofNat 56 n))

/-- One block: `WINIT; BLK i; SCHED; RND 0 .. 63; ACC` (R185). The block count is below `2^56` (10_state.md R31), so the index fits. -/
def runBlock (i : Nat) (s : State) : Result :=
  andThen (andThen (andThen (andThen (execWinit s) (execBlk (BitVec.ofNat 56 i))) execSched) (runRounds 64)) execAcc

/-- The first `n` blocks in index order (R185). -/
def runBlocks : Nat → State → Result
  | 0, s => .next s
  | n + 1, s => andThen (runBlocks n s) (runBlock n)

/-- The effect of `HASH` in `IDLE`: `NBLK` is the count set by the `PAD` just executed (R191). -/
def hashEffect (s : State) : Result :=
  andThen (andThen (andThen (execPad s) execHinit) (fun t => runBlocks t.nblk t)) execFmt

/-- `HASH`: legal only in `IDLE` (R191). -/
def execHash (s : State) : Result := whenLegal .hash (s.ph = .idle) hashEffect s

end Sys2Proof.Machine
end

