-- ==== Sys2Proof/Machine/Dispatch.lean ====
section
/-! DEFINITION. One arm for each command: the meaning it calls. -/

namespace Sys2Proof.Machine

/-- The meaning of a command in a state. -/
def exec (i : Instr) (s : State) : Host.Outcome State Fault Refusal :=
  match i with
  | .pad => Sys2Proof.Machine.execPad s
  | .hinit => Sys2Proof.Machine.execHinit s
  | .winit => Sys2Proof.Machine.execWinit s
  | .blk idx => Sys2Proof.Machine.execBlk idx s
  | .sched => Sys2Proof.Machine.execSched s
  | .rnd idx => Sys2Proof.Machine.execRnd idx s
  | .acc => Sys2Proof.Machine.execAcc s
  | .fmt => Sys2Proof.Machine.execFmt s
  | .hash => Sys2Proof.Machine.execHash s

end Sys2Proof.Machine
end

