-- ==== Sys2Proof/Machine/Sequencer.lean ====
section
/-! DEFINITION. What the block does with one action of the host: a command word (60_exceptions.md R214 to R217), a reset
(70_reset_and_hazards.md R240), an access (R245). Step.lean only calls it. -/

namespace Sys2Proof.Machine

/-- A word on the command port: discarded in `FAULT` (R217); `ILLEGAL_CMD` if it does not decode (R214, R216 (1)); else the meaning of
its command. -/
def acceptWord (w : CommandWord) (s : State) : Result :=
  if s.ph = .fault then .next s
  else
    match decode w with
    | .error _ => .next (takeFault .illegalCmd w s)
    | .ok i => exec i s

/-- The reset event (R240, 10_state.md R50): `MSG`, the parameter and the host's later actions stay; all else is as in State.reset
(log entries 1, 2 and 8). -/
def applyReset (s : State) : State :=
  { State.reset with msg := s.msg, msgCap := s.msgCap, port := s.port }

/-- The number of bytes of a memory (20_memory.md R61, R62). -/
def State.capacity (s : State) : Space → Nat
  | .msg => s.msgCap.toNat
  | .pmsg => Config.pmsgCap s.msgCap.toNat

/-- The memory of a space. -/
def State.memory (s : State) : Space → Memory
  | .msg => s.msg
  | .pmsg => s.pmsg

/-- A host write of one byte of `MSG` (R61); refused at an address that does not exist (R69). -/
def hostWriteMsg (addr : Nat) (b : Byte) (s : State) : Result :=
  if addr < s.capacity .msg then .next (s.setMsg (s.msg.write addr b)) else .refused (.hostNoSuchAddress .msg addr)

/-- What the host reads from a memory (R61, R62): refused at an address that does not exist (R69) and at a byte that holds no
value (10_state.md R51, U3). -/
def hostReadByte (space : Space) (addr : Nat) (s : State) : Except Refusal Byte :=
  if addr < s.capacity space then
    match (s.memory space).read addr with
    | some b => .ok b
    | none => .error (.hostUnwrittenRead space addr)
  else .error (.hostNoSuchAddress space addr)

/-- Whether a register, output or view has a value to read: the data register files, and the views of `H`, only once a command has
written them since reset (10_state.md R51). -/
def State.regHasValue (r : HostReg) (s : State) : Bool :=
  match r with
  | .ph => true
  | .bi => true
  | .t => true
  | .mlen => true
  | .plen => true
  | .fc => true
  | .fcmd => true
  | .status => true
  | .hashValid => true
  | .done => true
  | .fault => true
  | .s _ => s.written.s
  | .h _ => s.written.h
  | .w _ => s.written.w
  | .blkr _ => s.written.blkr
  | .hex _ => s.written.hex
  | .digestByte _ => s.written.h

/-- The contents of a register, output or view, widened with zeros (10_state.md R41). -/
def regContents (r : HostReg) (s : State) : BitVec 64 :=
  match r with
  | .ph => s.ph.code.setWidth 64
  | .bi => s.bi.setWidth 64
  | .t => s.t.setWidth 64
  | .mlen => s.mlen
  | .plen => s.plen
  | .fc => s.fc.code.setWidth 64
  | .fcmd => s.fcmd
  | .status => s.status.setWidth 64
  | .hashValid => (BitVec.ofBool s.hashValid).setWidth 64
  | .done => (BitVec.ofBool s.doneOut).setWidth 64
  | .fault => (BitVec.ofBool s.faultOut).setWidth 64
  | .s i => s.s[i].setWidth 64
  | .h i => s.h[i].setWidth 64
  | .w i => s.w[i].setWidth 64
  | .blkr i => s.blkr[i].setWidth 64
  | .hex i => s.hex[i].setWidth 64
  | .digestByte i => (digestBytes s.h)[i].setWidth 64

/-- The result of a host read of a register, output or view (10_state.md R41). The read always completes (`serveAction`); while no command
has written the register file since reset it has no result: "a model should treat such a read as having no defined result" (R51), "the
model should refuse to give it a value" (D25, U2; log entry 7). -/
def hostReadReg (r : HostReg) (s : State) : Option (BitVec 64) :=
  if s.regHasValue r then some (regContents r s) else none

/-- A host read of a memory byte as a step: no state changes (20_memory.md R68); a read that has no result is refused. -/
def serveRead (space : Space) (addr : Nat) (s : State) : Result :=
  match hostReadByte space addr s with
  | .ok _ => .next s
  | .error r => .refused r

/-- What the block does with one action of the host (R75, R240, R245). A read of a register never stops and changes nothing (10_state.md R41,
20_memory.md R68); its result is `hostReadReg`. -/
def serveAction (a : HostAction) (s : State) : Result :=
  match a with
  | .command w => acceptWord w s
  | .reset => .next (applyReset s)
  | .writeMsg addr b => hostWriteMsg addr b s
  | .writeMlen v => .next (s.setMlen v)
  | .readByte space addr => serveRead space addr s
  | .readReg _ => .next s

/-- Serve the oldest pending action; with none pending "the block holds its state unchanged" (60_exceptions.md R229; log entry 4). -/
def serveNext (s : State) : Result :=
  match s.port with
  | [] => .next s
  | a :: rest => serveAction a (s.setPort rest)

/-- The host's directive `.msg <bytes>`: write the bytes from address 0 up and set `MLEN` (30_encoding.md R98). For
`2^64` or more bytes, which no message memory holds, the length is taken modulo `2^64` (log entry 23). -/
def loadMessage (m : List Byte) : List HostAction :=
  (m.zipIdx.map fun c => .writeMsg c.2 c.1) ++ [.writeMlen (BitVec.ofNat 64 m.length)]

/-- Command words presented one after another. -/
def presentAll (is : List Instr) : List HostAction := is.map fun i => .command (encode i)

end Sys2Proof.Machine
end

