-- ==== Sys2Proof/Machine/Step.lean ====
section
/-! DEFINITION. One step of the machine, and how a word is placed where the next step takes it. -/

namespace Sys2Proof.Machine

/-- One step serves the oldest pending action of the host (20_memory.md R75). -/
def step (s : State) : Host.Outcome State Fault Refusal := Sys2Proof.Machine.serveNext s

/-- `s` with a word presented on the command port ahead of everything pending: there is no program memory, commands arrive on the
port (00_scope.md R14; log entry 4). -/
def State.withFetchWord (s : State) (nbits w : Nat) : State :=
  s.setPort (.command (BitVec.ofNat 64 (w % 2 ^ nbits)) :: s.port)

end Sys2Proof.Machine
end

