-- ==== Sys2Proof/Safety.lean ====
section
/-! DEFINITION. What counts as a safe state of SHA256CORE, in the terms the statements use: the sequencer's invariants
(10_state.md R33) with what an induction over steps needs beside them, the data-path invariant (45_compressor.md R193), where each
command is legal (R186), and the transition table. -/

namespace Sys2Proof.Machine

/-! ### Where a command is legal -/

/-- The phase, and for `RND` and `ACC` the round count, in which a command is legal (R186; the `legal_phase` column of the opcode
table). -/
def State.allows (s : State) : Instr → Prop
  | .pad => s.ph = .idle
  | .hinit => s.ph = .padded
  | .winit => s.ph = .ready
  | .blk _ => s.ph = .wset
  | .sched => s.ph = .loaded
  | .rnd _ => s.ph = .rounds ∧ s.t.toNat < 64
  | .acc => s.ph = .rounds ∧ s.t.toNat = 64
  | .fmt => s.ph = .done
  | .hash => s.ph = .idle

/-- A padded message is held: the phases in which R33 (iv) speaks of `PLEN`. -/
abbrev State.holdsPadded (s : State) : Prop := s.ph ≠ .idle ∧ s.ph ≠ .fault

/-- A block is in work: the phases of R33 (ii). -/
abbrev State.inBlock (s : State) : Prop := s.ph = .ready ∨ s.ph = .wset ∨ s.ph = .loaded ∨ s.ph = .rounds

/-- The digest words are there: the phases of R33 (iii). -/
abbrev State.absorbed (s : State) : Prop := s.ph = .done ∨ s.ph = .final

/-! ### The sequencer's invariants -/

/-- R33 (ii) to (vi); (i) is the type of `PH`. -/
abbrev State.seqRules (s : State) : Prop :=
  (s.inBlock → s.bi.toNat < s.nblk) ∧
  (s.absorbed → s.bi.toNat = s.nblk) ∧
  (s.holdsPadded → 0 < s.plen.toNat ∧ s.plen.toNat % 64 = 0) ∧
  s.t.toNat ≤ 64 ∧
  (s.fc = .none ↔ s.ph ≠ .fault)

/-- Both memories are in canonical form and list no address outside their space (20_memory.md R61, R62). -/
abbrev State.memoryRules (s : State) : Prop :=
  s.msg.wf = true ∧ s.pmsg.wf = true ∧
  (∀ c ∈ s.msg, c.1 < s.msgCap.toNat) ∧
  (∀ c ∈ s.pmsg, c.1 < Config.pmsgCap s.msgCap.toNat)

/-- While a padded message is held it fits its memory (20_memory.md R69) and every byte of it has a value (10_state.md R51). -/
abbrev State.paddedRules (s : State) : Prop :=
  s.holdsPadded → s.plen.toNat ≤ Config.pmsgCap s.msgCap.toNat ∧ (s.pmsg.readBytes 0 s.plen.toNat).isSome = true

/-- The invariant of the sequencer and the memories: R33 and what an induction over steps needs beside it. -/
abbrev State.SeqInv (s : State) : Prop := s.seqRules ∧ s.memoryRules ∧ s.paddedRules

/-! ### Written registers -/

/-- Which data register files hold a value in each phase: every file that a legal command of the phase reads, and every one written
before it (10_state.md R51, R27). -/
abbrev State.writtenRules (s : State) : Prop :=
  (s.inBlock ∨ s.absorbed → s.written.h = true) ∧
  (s.ph = .wset ∨ s.ph = .loaded ∨ s.ph = .rounds ∨ s.absorbed → s.written.s = true) ∧
  (s.ph = .loaded ∨ s.ph = .rounds ∨ s.absorbed → s.written.blkr = true) ∧
  (s.ph = .rounds ∨ s.absorbed → s.written.w = true) ∧
  (s.ph = .final → s.written.hex = true)

/-! ### The data path -/

/-- The padded message `PMSG[0..PLEN)`, where every byte of it has a value (20_memory.md R62). -/
def State.paddedMessage (s : State) : List Byte := (s.pmsg.readBytes 0 s.plen.toNat).getD []

/-- What the data registers hold in each phase: the hash state before block `BI`, its copy, the block, its schedule, the working
state after `T` rounds, the digest words and their text (10_state.md R30, 42_block_parser.md R155, 45_compressor.md R190, R193,
46_digest_formatter.md R200). -/
abbrev State.dataRules (s : State) : Prop :=
  (s.inBlock → s.h = hashAfter s.paddedMessage s.bi.toNat) ∧
  (s.ph = .wset → s.s = s.h) ∧
  (s.ph = .loaded ∨ s.ph = .rounds → s.blkr = toBlock (s.paddedMessage.drop (64 * s.bi.toNat))) ∧
  (s.ph = .loaded → s.s = s.h) ∧
  (s.ph = .rounds → s.w = schedule s.blkr ∧ s.s = roundsFrom s.w s.h s.t.toNat) ∧
  (s.absorbed → s.h = compress s.paddedMessage) ∧
  (s.ph = .final → s.hex = fmt s.h)

/-- While a padded message is held, it is the padding of some message that fits the message memory (41_padder.md R141). -/
def State.paddedFromMessage (s : State) : Prop :=
  s.holdsPadded → ∃ m : List Byte, m.length ≤ s.msgCap.toNat ∧ s.paddedMessage = pad m

/-! ### The transition table -/

/-- The rows of R186 for a command that decodes, from a state whose phase is not `FAULT`: condition, next phase, and the sequencer
registers also written (`BI`, `T`, `PLEN`, `FC`). -/
inductive TransitionRow (s t : State) : Instr → Prop where
  | pad : s.ph = .idle → t.ph = .padded → t.bi = s.bi → t.t = s.t →
      t.plen.toNat = 64 * ((s.mlen.toNat + 8) / 64 + 1) → t.fc = s.fc → TransitionRow s t .pad
  | hash : s.ph = .idle → t.ph = .final → t.plen.toNat = 64 * ((s.mlen.toNat + 8) / 64 + 1) → t.bi.toNat = t.nblk →
      t.t = 64#7 → t.fc = s.fc → TransitionRow s t .hash
  | hinit : s.ph = .padded → t.ph = .ready → t.bi = 0#56 → t.t = s.t → t.plen = s.plen → t.fc = s.fc → TransitionRow s t .hinit
  | winit : s.ph = .ready → t.ph = .wset → t.bi = s.bi → t.t = s.t → t.plen = s.plen → t.fc = s.fc → TransitionRow s t .winit
  | blk (idx : Index) : s.ph = .wset → idx.toNat < s.nblk → idx = s.bi → t.ph = .loaded →
      t.bi = s.bi → t.t = s.t → t.plen = s.plen → t.fc = s.fc → TransitionRow s t (.blk idx)
  | blkOutOfRange (idx : Index) : s.ph = .wset → s.nblk ≤ idx.toNat → t.ph = .fault → t.fc = .outOfRange →
      t.bi = s.bi → t.t = s.t → t.plen = s.plen → TransitionRow s t (.blk idx)
  | blkBadIndex (idx : Index) : s.ph = .wset → idx.toNat < s.nblk → idx ≠ s.bi → t.ph = .fault → t.fc = .badIndex →
      t.bi = s.bi → t.t = s.t → t.plen = s.plen → TransitionRow s t (.blk idx)
  | sched : s.ph = .loaded → t.ph = .rounds → t.bi = s.bi → t.t = 0#7 → t.plen = s.plen → t.fc = s.fc → TransitionRow s t .sched
  | rnd (idx : Index) : s.ph = .rounds → s.t.toNat < 64 → idx = s.t.setWidth 56 → t.ph = .rounds →
      t.bi = s.bi → t.t.toNat = s.t.toNat + 1 → t.plen = s.plen → t.fc = s.fc → TransitionRow s t (.rnd idx)
  | rndBadIndex (idx : Index) : s.ph = .rounds → s.t.toNat < 64 → idx ≠ s.t.setWidth 56 → t.ph = .fault → t.fc = .badIndex →
      t.bi = s.bi → t.t = s.t → t.plen = s.plen → TransitionRow s t (.rnd idx)
  | accReady : s.ph = .rounds → s.t.toNat = 64 → s.bi.toNat + 1 < s.nblk → t.ph = .ready →
      t.bi.toNat = s.bi.toNat + 1 → t.t = s.t → t.plen = s.plen → t.fc = s.fc → TransitionRow s t .acc
  | accDone : s.ph = .rounds → s.t.toNat = 64 → s.bi.toNat + 1 = s.nblk → t.ph = .done →
      t.bi.toNat = s.bi.toNat + 1 → t.t = s.t → t.plen = s.plen → t.fc = s.fc → TransitionRow s t .acc
  | fmt : s.ph = .done → t.ph = .final → t.bi = s.bi → t.t = s.t → t.plen = s.plen → t.fc = s.fc → TransitionRow s t .fmt
  | badPhase (i : Instr) : ¬ s.allows i → t.ph = .fault → t.fc = .badPhase →
      t.bi = s.bi → t.t = s.t → t.plen = s.plen → TransitionRow s t i

/-! ### Forms the statements use -/

/-- The state after fault entry, field by field (60_exceptions.md R215). -/
abbrev State.faulted (s : State) (c : FaultCode) (cmd : CommandWord) : State :=
  { s with fc := c, fcmd := cmd, ph := .fault }

/-- The message `MSG[0..MLEN)` is `m`, and it fits the memory: what a host has done before a run (70_reset_and_hazards.md R244). -/
def State.messageIs (s : State) (m : List Byte) : Prop :=
  s.mlen.toNat ≤ s.msgCap.toNat ∧ s.msg.readBytes 0 s.mlen.toNat = some m

/-- Rename the next state of an outcome; a stop stays as it is. -/
def mapNext (f : State → State) (r : Result) : Result :=
  match r with
  | .next s => .next (f s)
  | .fault e => .fault e
  | .refused e => .refused e

/-- `n` steps one after another; the first stop ends them. -/
def runSteps : Nat → State → Result
  | 0, s => .next s
  | n + 1, s => andThen (step s) (runSteps n)

/-- A memory with every byte that holds a value replaced by zero; which addresses hold one stays. -/
def eraseBytes (m : Memory) : Memory := m.map fun c => (c.1, 0x00#8)

/-- A state with its data values replaced by zeros: the five data register files and every byte of both memories (R35,
40_constants_and_bitmixers.md R120). -/
def State.eraseData (s : State) : State :=
  { s with
    s := Vector.replicate 8 0#32, h := Vector.replicate 8 0#32, w := Vector.replicate 64 0#32,
    blkr := Vector.replicate 64 0#8, hex := Vector.replicate 64 0#8,
    msg := eraseBytes s.msg, pmsg := eraseBytes s.pmsg }

/-- A state with another message and message length, as host writes leave it (20_memory.md R80). -/
def State.withMessage (s : State) (msg : Memory) (mlen : BitVec 64) : State := { s with msg := msg, mlen := mlen }

end Sys2Proof.Machine
end

