-- ==== Sys2Proof/Certificates/Slice0/Obligations.lean ====
section
/-! DEFINITION. The statements about SHA256CORE for the provers. Each docstring names the rule of spec/ it formalises. -/

open Sys2Proof Sys2Proof.Machine

/-! ### Encoding -/

/-- Words of 95_test_vectors.md section 9, read bit by bit from the formats of 30_encoding.md, decode to what they stand for. -/
def Obligations.SpecWordsDecode : Prop :=
  decode 0x0100000000000000#64 = .ok .pad ∧
  decode 0x0200000000000000#64 = .ok .hinit ∧
  decode 0x0300000000000000#64 = .ok .winit ∧
  decode 0x0400000000000001#64 = .ok (.blk 1#56) ∧
  decode 0x04FFFFFFFFFFFFFF#64 = .ok (.blk 72057594037927935#56) ∧
  decode 0x0500000000000000#64 = .ok .sched ∧
  decode 0x060000000000003F#64 = .ok (.rnd 63#56) ∧
  decode 0x0700000000000000#64 = .ok .acc ∧
  decode 0x0800000000000000#64 = .ok .fmt ∧
  decode 0x0900000000000000#64 = .ok .hash

/-- Decoding the word of any command gives that command back, with every index. -/
def Obligations.DecodeEncodeAgree : Prop := ∀ i : Instr, decode (encode i) = .ok i

/-- R96: every word is exactly one command, whose word it is, or it is illegal and the word of none. -/
def Obligations.EveryWordIsOneCommandOrIllegal : Prop :=
  ∀ w : CommandWord,
    (∃ i, decode w = .ok i ∧ ∀ j, encode j = w ↔ j = i) ∨ ((∃ e, decode w = .error e) ∧ ∀ j, encode j ≠ w)

/-- R94: the rows of the opcode map are disjoint, and a word selects a row exactly when it decodes to a command of that row. -/
def Obligations.OpcodeMapAgreesWithDecoder : Prop :=
  opcodeMap.length = 9 ∧
  (∀ r ∈ opcodeMap, ∀ r' ∈ opcodeMap, ∀ w, r.selects w = true → r'.selects w = true → r = r') ∧
  ∀ r ∈ opcodeMap, ∀ w, r.selects w = true ↔ ∃ i, decode w = .ok i ∧ i.mnemonic = r.mnemonic

/-- R95: a word is illegal exactly when its opcode is unassigned or a format N opcode comes with low bits set; accepted while `PH` is
not `FAULT` it raises `ILLEGAL_CMD` and has no other effect; the all-zero and the all-ones word are illegal. -/
def Obligations.IllegalWordsFault : Prop :=
  (∀ w : CommandWord, (∃ e, decode w = .error e) ↔
    ((w.extractLsb' 56 8).toNat = 0 ∨ 0x0A ≤ (w.extractLsb' 56 8).toNat) ∨
    ((w.extractLsb' 56 8).toNat ∈ [0x01, 0x02, 0x03, 0x05, 0x07, 0x08, 0x09] ∧ w.extractLsb' 0 56 ≠ 0#56)) ∧
  (∀ (s : State) (w : CommandWord) (rest : List HostAction) (e : IllegalWord),
    s.port = .command w :: rest → s.ph ≠ .fault → decode w = .error e →
    step s = .next { s with port := rest, fc := .illegalCmd, fcmd := w, ph := .fault }) ∧
  (∃ e, decode 0x0000000000000000#64 = .error e) ∧ (∃ e, decode 0xFFFFFFFFFFFFFFFF#64 = .error e)

/-- R98: an assembler line stands for a command exactly when it is well formed, and the word of `BLK n` and `RND n` is the
opcode's word plus `n`. -/
def Obligations.AssemblerLinesEncode : Prop :=
  (∀ l : SourceLine, l.assemble.isSome = l.wf) ∧
  (∀ l i, SourceLine.assemble l = some i → i.mnemonic = l.mnemonic ∧
    (encode i).toNat = l.mnemonic.opcode.toNat * 2 ^ 56 + l.operand.getD 0)

/-! ### Words, mixers and pure functions -/

/-- R122 to R124 as arithmetic on numbers: addition modulo `2^32`, right rotation, logical right shift. -/
def Obligations.WordArithmetic : Prop :=
  (∀ x y : Word, (add32 x y).toNat = (x.toNat + y.toNat) % 2 ^ 32) ∧
  (∀ (x : Word) (n : Nat), 1 ≤ n → n ≤ 31 → ∀ i, i < 32 → (rotr x n).getLsbD i = x.getLsbD ((i + n) % 32)) ∧
  (∀ (x : Word) (n : Nat), (shr x n).toNat = x.toNat / 2 ^ n)

/-- R126 and R125: the 64 round constants, eight a line, and the eight initial hash words. The values are the spec's, which marks them
as taken from general knowledge (log entry 13). -/
def Obligations.TablesHoldTheSpecWords : Prop :=
  kTable.length = 64 ∧
  kTable.take 16 = [
    0x428a2f98#32, 0x71374491#32, 0xb5c0fbcf#32, 0xe9b5dba5#32, 0x3956c25b#32, 0x59f111f1#32, 0x923f82a4#32, 0xab1c5ed5#32,
    0xd807aa98#32, 0x12835b01#32, 0x243185be#32, 0x550c7dc3#32, 0x72be5d74#32, 0x80deb1fe#32, 0x9bdc06a7#32, 0xc19bf174#32] ∧
  (kTable.drop 16).take 16 = [
    0xe49b69c1#32, 0xefbe4786#32, 0x0fc19dc6#32, 0x240ca1cc#32, 0x2de92c6f#32, 0x4a7484aa#32, 0x5cb0a9dc#32, 0x76f988da#32,
    0x983e5152#32, 0xa831c66d#32, 0xb00327c8#32, 0xbf597fc7#32, 0xc6e00bf3#32, 0xd5a79147#32, 0x06ca6351#32, 0x14292967#32] ∧
  (kTable.drop 32).take 16 = [
    0x27b70a85#32, 0x2e1b2138#32, 0x4d2c6dfc#32, 0x53380d13#32, 0x650a7354#32, 0x766a0abb#32, 0x81c2c92e#32, 0x92722c85#32,
    0xa2bfe8a1#32, 0xa81a664b#32, 0xc24b8b70#32, 0xc76c51a3#32, 0xd192e819#32, 0xd6990624#32, 0xf40e3585#32, 0x106aa070#32] ∧
  kTable.drop 48 = [
    0x19a4c116#32, 0x1e376c08#32, 0x2748774c#32, 0x34b0bcb5#32, 0x391c0cb3#32, 0x4ed8aa4a#32, 0x5b9cca4f#32, 0x682e6ff3#32,
    0x748f82ee#32, 0x78a5636f#32, 0x84c87814#32, 0x8cc70208#32, 0x90befffa#32, 0xa4506ceb#32, 0xbef9a3f7#32, 0xc67178f2#32] ∧
  ivTable = #v[0x6a09e667#32, 0xbb67ae85#32, 0x3c6ef372#32, 0xa54ff53a#32, 0x510e527f#32, 0x9b05688c#32, 0x1f83d9ab#32,
    0x5be0cd19#32]

/-- R127 to R130, bit by bit: which bits of the word make bit `i` of each sigma; the shifted term gives nothing above the word. -/
def Obligations.SigmaBits : Prop :=
  ∀ (x : Word) (i : Nat), i < 32 →
    (sigma0 x).getLsbD i = ((x.getLsbD ((i + 7) % 32)).xor (x.getLsbD ((i + 18) % 32))).xor (x.getLsbD (i + 3)) ∧
    (sigma1 x).getLsbD i = ((x.getLsbD ((i + 17) % 32)).xor (x.getLsbD ((i + 19) % 32))).xor (x.getLsbD (i + 10)) ∧
    (bigSigma0 x).getLsbD i = ((x.getLsbD ((i + 2) % 32)).xor (x.getLsbD ((i + 13) % 32))).xor (x.getLsbD ((i + 22) % 32)) ∧
    (bigSigma1 x).getLsbD i = ((x.getLsbD ((i + 6) % 32)).xor (x.getLsbD ((i + 11) % 32))).xor (x.getLsbD ((i + 25) % 32))

/-- R131 and R132, bit by bit: `choice` selects, `majority` is set exactly when at least two of the three bits are. -/
def Obligations.ChoiceAndMajorityBits : Prop :=
  ∀ (x y z : Word) (i : Nat), i < 32 →
    (choice x y z).getLsbD i = (if x.getLsbD i then y.getLsbD i else z.getLsbD i) ∧
    (majority x y z).getLsbD i = decide (2 ≤ (x.getLsbD i).toNat + (y.getLsbD i).toNat + (z.getLsbD i).toNat)

/-- R143 (with the "least z" of R141): how many fill bytes, how long the padded message is, how many blocks. -/
def Obligations.PadLengthClosedForms : Prop :=
  ∀ m : List Byte,
    ((fillCount m.length : Int) = (55 - (m.length : Int)) % 64) ∧
    (8 * (m.length + 1 + fillCount m.length)) % 512 = 448 ∧
    (∀ z, (8 * (m.length + 1 + z)) % 512 = 448 → fillCount m.length ≤ z) ∧
    (pad m).length = m.length + 9 + fillCount m.length ∧
    (pad m).length = 64 * ((m.length + 8) / 64 + 1) ∧
    (pad m).length / 64 = (m.length + 8) / 64 + 1 ∧
    (m.length % 64 ≤ 55 → fillCount m.length = 55 - m.length % 64) ∧
    (56 ≤ m.length % 64 → fillCount m.length = 119 - m.length % 64) ∧
    9 ≤ (pad m).length - m.length ∧ (pad m).length - m.length ≤ 72

/-- R144: what each byte of the padded message is, for every message whose bit length fits 64 bits. -/
def Obligations.PadPostconditions : Prop :=
  ∀ m : List Byte, m.length < 2 ^ 61 →
    0 < (pad m).length ∧ (pad m).length % 64 = 0 ∧ m.length + 9 ≤ (pad m).length ∧
    (pad m).take m.length = m ∧
    (pad m)[m.length]? = some 0x80#8 ∧
    (∀ k, m.length + 1 ≤ k → k < (pad m).length - 8 → (pad m)[k]? = some 0x00#8) ∧
    (∀ j, j < 8 → (pad m)[(pad m).length - 8 + j]? = some (BitVec.ofNat 8 (8 * m.length / 2 ^ (56 - 8 * j))))

/-- R146: the block count at and between the boundaries. -/
def Obligations.PadBlockBoundaries : Prop :=
  ∀ m : List Byte,
    (m.length = 55 → (pad m).length = 64) ∧
    (m.length ≤ 55 → (pad m).length / 64 = 1) ∧
    (56 ≤ m.length → 2 ≤ (pad m).length / 64) ∧
    (56 ≤ m.length → m.length ≤ 119 → (pad m).length / 64 = 2) ∧
    (120 ≤ m.length → m.length ≤ 183 → (pad m).length / 64 = 3) ∧
    (∀ b : Byte, (pad (m ++ [b])).length / 64 =
      (pad m).length / 64 + (if (m ++ [b]).length % 64 = 56 then 1 else 0))

/-- R151: the blocks of a padded message, byte by byte; none beyond the last; together they are the whole message. -/
def Obligations.BlocksCoverPaddedMessage : Prop :=
  ∀ p : List Byte, p.length % 64 = 0 →
    (∀ i, i < p.length / 64 → ∃ b, block p i = some b ∧ ∀ k : Fin 64, p[64 * i + k.val]? = some b[k]) ∧
    (∀ i, p.length / 64 ≤ i → block p i = none) ∧
    p = (List.range (p.length / 64)).flatMap (fun i => ((block p i).map Vector.toList).getD [])

/-- R161: words 0 to 15 are the block's bytes read big-endian. -/
def Obligations.ScheduleFirstWords : Prop :=
  ∀ (b : Vector Byte 64) (i : Fin 16),
    (schedule b)[i.val].toNat =
      b[4 * i.val].toNat * 2 ^ 24 + b[4 * i.val + 1].toNat * 2 ^ 16 + b[4 * i.val + 2].toNat * 2 ^ 8 + b[4 * i.val + 3].toNat

/-- R162: the recurrence for words 16 to 63; an all-zero block gives 64 zero words. -/
def Obligations.ScheduleRecurrence : Prop :=
  (∀ (b : Vector Byte 64) (i : Nat) (_ : 16 ≤ i) (_ : i < 64),
    (schedule b)[i] = sigma1 (schedule b)[i - 2] + (schedule b)[i - 7] + sigma0 (schedule b)[i - 15] + (schedule b)[i - 16]) ∧
  (∀ i : Fin 64, (schedule (Vector.replicate 64 0#8))[i] = 0#32)

/-- R171 and R173: the eight values after a round, as numbers modulo `2^32`; the words `w` and `k` enter only through their sum. -/
def Obligations.RoundNextState : Prop :=
  ∀ (s : Vector Word 8) (w k : Word),
    (∀ t1 t2 : Nat,
      t1 = (s[7].toNat + (bigSigma1 s[4]).toNat + (choice s[4] s[5] s[6]).toNat + k.toNat + w.toNat) % 2 ^ 32 →
      t2 = ((bigSigma0 s[0]).toNat + (majority s[0] s[1] s[2]).toNat) % 2 ^ 32 →
      (compressionRound s w k)[0].toNat = (t1 + t2) % 2 ^ 32 ∧ (compressionRound s w k)[4].toNat = (s[3].toNat + t1) % 2 ^ 32) ∧
    (compressionRound s w k)[1] = s[0] ∧ (compressionRound s w k)[2] = s[1] ∧ (compressionRound s w k)[3] = s[2] ∧
    (compressionRound s w k)[5] = s[4] ∧ (compressionRound s w k)[6] = s[5] ∧ (compressionRound s w k)[7] = s[6] ∧
    (∀ w' k' : Word, add32 w k = add32 w' k' → compressionRound s w k = compressionRound s w' k')

/-- R200 and R202: every character of the text, the most significant digit of each word first, lowercase. -/
def Obligations.FormatterCharacters : Prop :=
  ∀ (h : Vector Word 8) (i j : Fin 8),
    ∀ n, n = h[i].toNat / 16 ^ (7 - j.val) % 16 →
      (fmt h)[8 * i.val + j.val].toNat = (if n ≤ 9 then 0x30 + n else 0x57 + n) ∧
      (0x30 ≤ (fmt h)[8 * i.val + j.val].toNat ∧ (fmt h)[8 * i.val + j.val].toNat ≤ 0x39 ∨
        0x61 ≤ (fmt h)[8 * i.val + j.val].toNat ∧ (fmt h)[8 * i.val + j.val].toNat ≤ 0x66)

/-- R203: formatting and then parsing gives the words back. -/
def Obligations.FormatThenParse : Prop := ∀ h : Vector Word 8, parse (fmt h) = h

/-! ### Reset, status and host -/

/-- The reset values that R50 states: control registers, outputs and `STATUS`; no byte of `PMSG` and no data register has
a value; nothing is pending. (The values of the registers R50 leaves unspecified are log entry 1 and are not stated here.) -/
def Obligations.ResetStateValues : Prop :=
  State.reset.ph = .idle ∧ State.reset.bi = 0#56 ∧ State.reset.t = 0#7 ∧ State.reset.mlen = 0#64 ∧ State.reset.plen = 0#64 ∧
  State.reset.fc = .none ∧ State.reset.fcmd = 0#64 ∧ State.reset.hashValid = false ∧ State.reset.doneOut = false ∧
  State.reset.faultOut = false ∧ State.reset.status = 0x00000000#32 ∧ (∀ a, State.reset.pmsg.read a = none) ∧
  State.reset.written = .none ∧
  State.reset.port = []

/-- The reset event (R240) from any phase: the control registers and outputs as R50 says, `MSG` and the parameter unchanged, no
byte of `PMSG` and no data register has a value (R51). -/
def Obligations.ResetEventEffect : Prop :=
  ∀ (s : State) (rest : List HostAction), s.port = .reset :: rest →
    ∃ t, step s = .next t ∧ t.ph = .idle ∧ t.bi = 0#56 ∧ t.t = 0#7 ∧ t.mlen = 0#64 ∧ t.plen = 0#64 ∧ t.fc = .none ∧
      t.fcmd = 0#64 ∧ t.msg = s.msg ∧ t.msgCap = s.msgCap ∧ t.port = rest ∧ (∀ a, t.pmsg.read a = none) ∧ t.written = .none ∧
      t.hashValid = false ∧ t.doneOut = false ∧ t.faultOut = false

/-- R40: the fields of `STATUS`, with the three outputs of R35, the codes of the phases (R30) and of the faults (R38, R210). -/
def Obligations.StatusFields : Prop :=
  (∀ s : State,
    s.status.extractLsb' 0 4 = s.ph.code ∧ s.status.extractLsb' 4 4 = s.fc.code ∧
    s.status.getLsbD 8 = decide (s.ph = .done ∨ s.ph = .final) ∧
    s.status.getLsbD 9 = decide (s.ph = .final) ∧
    s.status.getLsbD 10 = decide (s.ph = .fault) ∧
    (∀ i, 11 ≤ i → s.status.getLsbD i = false)) ∧
  (Phase.code .idle = 0#4 ∧ Phase.code .padded = 1#4 ∧ Phase.code .ready = 2#4 ∧ Phase.code .wset = 3#4 ∧
    Phase.code .loaded = 4#4 ∧ Phase.code .rounds = 5#4 ∧ Phase.code .done = 6#4 ∧ Phase.code .final = 7#4 ∧
    Phase.code .fault = 15#4) ∧
  (FaultCode.code .none = 0#4 ∧ FaultCode.code .outOfRange = 1#4 ∧ FaultCode.code .badPhase = 2#4 ∧
    FaultCode.code .badIndex = 3#4 ∧ FaultCode.code .illegalCmd = 4#4) ∧
  State.reset.status = 0x00000000#32

/-- Host accesses (20_memory.md R61, R62, R68, R69, 10_state.md R36, R41, R51): a write of `MSG` in range writes that byte and
nothing else; a write of `MLEN` that register and nothing else; a read changes nothing, and a read of a
register always completes (what it gives: HostReadsRegisters and RegisterReadsNeedAWrite); an access to no location (R69), or a read of a
byte of memory that holds no value (R51, U2, U3), is refused. -/
def Obligations.HostAccessEffects : Prop :=
  ∀ (s : State) (rest : List HostAction),
    (∀ a b, s.port = .writeMsg a b :: rest → a < s.msgCap.toNat →
      ∃ t, step s = .next t ∧ t.msg.read a = some b ∧ (∀ x, x ≠ a → t.msg.read x = s.msg.read x) ∧
        t = { s with msg := t.msg, port := rest }) ∧
    (∀ a b, s.port = .writeMsg a b :: rest → s.msgCap.toNat ≤ a → step s = .refused (.hostNoSuchAddress .msg a)) ∧
    (∀ v, s.port = .writeMlen v :: rest → step s = .next { s with mlen := v, port := rest }) ∧
    (∀ r, s.port = .readReg r :: rest → step s = .next { s with port := rest }) ∧
    (∀ a b, s.port = .readByte .msg a :: rest → a < s.msgCap.toNat → s.msg.read a = some b →
      step s = .next { s with port := rest } ∧ hostReadByte .msg a s = .ok b) ∧
    (∀ a b, s.port = .readByte .pmsg a :: rest → a < 64 * ((s.msgCap.toNat + 8) / 64 + 1) → s.pmsg.read a = some b →
      step s = .next { s with port := rest } ∧ hostReadByte .pmsg a s = .ok b) ∧
    (∀ a, s.port = .readByte .msg a :: rest → s.msgCap.toNat ≤ a → step s = .refused (.hostNoSuchAddress .msg a)) ∧
    (∀ a, s.port = .readByte .pmsg a :: rest → 64 * ((s.msgCap.toNat + 8) / 64 + 1) ≤ a →
      step s = .refused (.hostNoSuchAddress .pmsg a)) ∧
    (∀ a, s.port = .readByte .msg a :: rest → a < s.msgCap.toNat → s.msg.read a = none →
      step s = .refused (.hostUnwrittenRead .msg a)) ∧
    (∀ a, s.port = .readByte .pmsg a :: rest → a < 64 * ((s.msgCap.toNat + 8) / 64 + 1) → s.pmsg.read a = none →
      step s = .refused (.hostUnwrittenRead .pmsg a))

/-- R26 and R41: what the host reads from every register, status output and view, as a number: the elements of a data register file
once a command has written it (R51); each of the 32 digest bytes, the most significant byte of a word first, in every phase in which `H`
is written (log entry 17); the control registers and outputs always. -/
def Obligations.HostReadsRegisters : Prop :=
  ∀ s : State,
    (s.written.s = true → ∀ i : Fin 8, ∃ v, hostReadReg (.s i) s = some v ∧ v.toNat = s.s[i].toNat) ∧
    (s.written.h = true → ∀ i : Fin 8, ∃ v, hostReadReg (.h i) s = some v ∧ v.toNat = s.h[i].toNat) ∧
    (s.written.w = true → ∀ i : Fin 64, ∃ v, hostReadReg (.w i) s = some v ∧ v.toNat = s.w[i].toNat) ∧
    (s.written.blkr = true → ∀ i : Fin 64, ∃ v, hostReadReg (.blkr i) s = some v ∧ v.toNat = s.blkr[i].toNat) ∧
    (s.written.hex = true → ∀ i : Fin 64, ∃ v, hostReadReg (.hex i) s = some v ∧ v.toNat = s.hex[i].toNat) ∧
    (s.written.h = true → ∀ (i : Fin 8) (j : Fin 4) (k : Fin 32), k.val = 4 * i.val + j.val →
      ∃ v, hostReadReg (.digestByte k) s = some v ∧ v.toNat = s.h[i].toNat / 256 ^ (3 - j.val) % 256) ∧
    (∃ v, hostReadReg .ph s = some v ∧ v.toNat = s.ph.code.toNat) ∧
    (∃ v, hostReadReg .bi s = some v ∧ v.toNat = s.bi.toNat) ∧
    (∃ v, hostReadReg .t s = some v ∧ v.toNat = s.t.toNat) ∧
    hostReadReg .mlen s = some s.mlen ∧ hostReadReg .plen s = some s.plen ∧ hostReadReg .fcmd s = some s.fcmd ∧
    (∃ v, hostReadReg .fc s = some v ∧ v.toNat = s.fc.code.toNat) ∧
    (∃ v, hostReadReg .status s = some v ∧ v.toNat = s.status.toNat) ∧
    (∃ v, hostReadReg .hashValid s = some v ∧ v.toNat = s.hashValid.toNat) ∧
    (∃ v, hostReadReg .done s = some v ∧ v.toNat = s.doneOut.toNat) ∧
    (∃ v, hostReadReg .fault s = some v ∧ v.toNat = s.faultOut.toNat)

/-- R51, D25 and U2: a read of an element of a data register file, or of a digest byte, that no command has written since reset has
no result; so each is right after reset and right after the reset event. The read itself completes and changes nothing (R41). -/
def Obligations.RegisterReadsNeedAWrite : Prop :=
  (∀ s : State,
    (s.written.s = false → ∀ i, hostReadReg (.s i) s = none) ∧
    (s.written.h = false → ∀ i, hostReadReg (.h i) s = none) ∧
    (s.written.w = false → ∀ i, hostReadReg (.w i) s = none) ∧
    (s.written.blkr = false → ∀ i, hostReadReg (.blkr i) s = none) ∧
    (s.written.hex = false → ∀ i, hostReadReg (.hex i) s = none) ∧
    (s.written.h = false → ∀ i, hostReadReg (.digestByte i) s = none)) ∧
  (∀ r, (∃ i, r = .s i ∨ r = .h i) ∨ (∃ i, r = .w i ∨ r = .blkr i ∨ r = .hex i) ∨ (∃ i, r = .digestByte i) →
    hostReadReg r State.reset = none ∧
    ∀ (s : State) (rest : List HostAction), s.port = .reset :: .readReg r :: rest →
      ∃ t, step s = .next t ∧ hostReadReg r t = none ∧ step t = .next { t with port := rest })

/-- The model's step: with nothing pending the block holds its state (60_exceptions.md R229; log entry 4), and a word on the port that
decodes to a command runs that command's meaning, which in `FAULT` changes nothing (R217). -/
def Obligations.StepRunsDecodedCommand : Prop :=
  (∀ s : State, s.port = [] → step s = .next s) ∧
  (∀ (s : State) (w : CommandWord) (rest : List HostAction) (i : Instr),
    s.port = .command w :: rest → decode w = .ok i → step s = exec i { s with port := rest }) ∧
  (∀ (s : State) (i : Instr), s.ph = .fault → exec i s = .next s)

/-! ### What each command does -/

/-- R142: `PAD` in `IDLE` with a message that fits and is written; in any other phase but `FAULT` it faults; its word is legal only
with zero low bits. -/
def Obligations.PadPadsTheMessage : Prop :=
  (∀ (s : State) (m : List Byte), s.ph = .idle → s.messageIs m →
    ∃ t, exec .pad s = .next t ∧
      t.ph = .padded ∧ t.plen.toNat = 64 * ((s.mlen.toNat + 8) / 64 + 1) ∧
      t.pmsg.readBytes 0 t.plen.toNat = some (pad m) ∧
      (∀ a, t.plen.toNat ≤ a → t.pmsg.read a = s.pmsg.read a) ∧
      t = { s with pmsg := t.pmsg, plen := t.plen, ph := t.ph }) ∧
  (∀ s : State, s.ph ≠ .idle → s.ph ≠ .fault → exec .pad s = .next (s.faulted .badPhase 0x0100000000000000#64)) ∧
  decode 0x0100000000000000#64 = .ok .pad ∧ (∀ low : Index, low ≠ 0#56 → ∃ e, decode (0x01#8 ++ low) = .error e)

/-- R181: `HINIT` in `PADDED`. -/
def Obligations.HinitLoadsInitialHash : Prop :=
  (∀ s : State, s.ph = .padded → exec .hinit s = .next { s with
    h := #v[0x6a09e667#32, 0xbb67ae85#32, 0x3c6ef372#32, 0xa54ff53a#32, 0x510e527f#32, 0x9b05688c#32, 0x1f83d9ab#32, 0x5be0cd19#32],
    bi := 0#56, ph := .ready, written := { s.written with h := true } }) ∧
  (∀ s : State, s.ph ≠ .padded → s.ph ≠ .fault → exec .hinit s = .next (s.faulted .badPhase 0x0200000000000000#64)) ∧
  decode 0x0200000000000000#64 = .ok .hinit ∧ (∀ low : Index, low ≠ 0#56 → ∃ e, decode (0x02#8 ++ low) = .error e)

/-- R182: `WINIT` in `READY`. -/
def Obligations.WinitCopiesHash : Prop :=
  (∀ s : State, s.ph = .ready → exec .winit s = .next { s with
    s := s.h, ph := .wset, written := { s.written with s := true } }) ∧
  (∀ s : State, s.ph ≠ .ready → s.ph ≠ .fault → exec .winit s = .next (s.faulted .badPhase 0x0300000000000000#64)) ∧
  decode 0x0300000000000000#64 = .ok .winit ∧ (∀ low : Index, low ≠ 0#56 → ∃ e, decode (0x03#8 ++ low) = .error e)

/-- R152 to R154: `BLK idx`, with its faults in the order they are tested. The last clause is the model's choice (log entry 2): a
byte of the block that holds no value stops the command; no state of `SeqInv` reaches it. -/
def Obligations.BlkLoadsTheBlock : Prop :=
  ∀ (idx : Index) (s : State),
    decode (0x04#8 ++ idx) = .ok (.blk idx) ∧
    (s.ph = .wset → idx.toNat < s.plen.toNat / 64 → idx = s.bi → ∀ bs, s.pmsg.readBytes (64 * idx.toNat) 64 = some bs →
      ∃ t, exec (.blk idx) s = .next t ∧ (∀ k : Fin 64, s.pmsg.read (64 * idx.toNat + k.val) = some t.blkr[k]) ∧
        t = { s with blkr := t.blkr, ph := .loaded, written := { s.written with blkr := true } }) ∧
    (s.ph = .wset → s.plen.toNat / 64 ≤ idx.toNat → exec (.blk idx) s = .next (s.faulted .outOfRange (0x04#8 ++ idx))) ∧
    (s.ph = .wset → idx.toNat < s.plen.toNat / 64 → idx ≠ s.bi → exec (.blk idx) s = .next (s.faulted .badIndex (0x04#8 ++ idx))) ∧
    (s.ph ≠ .wset → s.ph ≠ .fault → exec (.blk idx) s = .next (s.faulted .badPhase (0x04#8 ++ idx))) ∧
    (s.ph = .wset → idx.toNat < s.plen.toNat / 64 → idx = s.bi → s.pmsg.readBytes (64 * idx.toNat) 64 = none →
      ∃ a, 64 * idx.toNat ≤ a ∧ a < 64 * idx.toNat + 64 ∧ s.pmsg.read a = none ∧
        exec (.blk idx) s = .fault (.unwrittenRead .pmsg a))

/-- R163: `SCHED` in `LOADED` writes all 64 words, `T` and the phase. -/
def Obligations.SchedExpandsTheBlock : Prop :=
  (∀ s : State, s.ph = .loaded →
    ∃ t, exec .sched s = .next t ∧
      (∀ i : Fin 16, t.w[i.val].toNat = s.blkr[4 * i.val].toNat * 2 ^ 24 + s.blkr[4 * i.val + 1].toNat * 2 ^ 16 +
        s.blkr[4 * i.val + 2].toNat * 2 ^ 8 + s.blkr[4 * i.val + 3].toNat) ∧
      (∀ (i : Nat) (_ : 16 ≤ i) (_ : i < 64),
        t.w[i] = sigma1 t.w[i - 2] + t.w[i - 7] + sigma0 t.w[i - 15] + t.w[i - 16]) ∧
      t = { s with w := t.w, t := 0#7, ph := .rounds, written := { s.written with w := true } }) ∧
  (∀ s : State, s.ph ≠ .loaded → s.ph ≠ .fault → exec .sched s = .next (s.faulted .badPhase 0x0500000000000000#64)) ∧
  decode 0x0500000000000000#64 = .ok .sched ∧ (∀ low : Index, low ≠ 0#56 → ∃ e, decode (0x05#8 ++ low) = .error e)

/-- R172 and R174: `RND idx`, with its faults in the order they are tested; `W[T]` and `K[T]` with the same `T`. -/
def Obligations.RndAppliesOneRound : Prop :=
  ∀ (idx : Index) (s : State),
    decode (0x06#8 ++ idx) = .ok (.rnd idx) ∧
    (s.ph = .rounds → ∀ hT : s.t.toNat < 64, idx.toNat = s.t.toNat →
      ∃ k, kTable[s.t.toNat]? = some k ∧
        exec (.rnd idx) s = .next { s with
          s := compressionRound s.s s.w[s.t.toNat] k, t := s.t + 1#7, written := { s.written with s := true } }) ∧
    (s.ph = .rounds → s.t.toNat < 64 → idx.toNat ≠ s.t.toNat → exec (.rnd idx) s = .next (s.faulted .badIndex (0x06#8 ++ idx))) ∧
    (s.ph = .rounds → s.t.toNat = 64 → exec (.rnd idx) s = .next (s.faulted .badPhase (0x06#8 ++ idx))) ∧
    (s.ph ≠ .rounds → s.ph ≠ .fault → exec (.rnd idx) s = .next (s.faulted .badPhase (0x06#8 ++ idx)))

/-- R183: `ACC` in `ROUNDS` with `T = 64`: eight independent lanes; the next phase from `BI` before the command. -/
def Obligations.AccAddsEightLanes : Prop :=
  (∀ s : State, s.ph = .rounds → s.t.toNat = 64 →
    ∃ t, exec .acc s = .next t ∧ (∀ i : Fin 8, t.h[i].toNat = (s.h[i].toNat + s.s[i].toNat) % 2 ^ 32) ∧
      t = { s with
        h := t.h, bi := s.bi + 1#56, written := { s.written with h := true },
        ph := if s.bi.toNat + 1 < s.plen.toNat / 64 then .ready else .done }) ∧
  (∀ s : State, s.ph = .rounds → s.t.toNat < 64 → exec .acc s = .next (s.faulted .badPhase 0x0700000000000000#64)) ∧
  (∀ s : State, s.ph ≠ .rounds → s.ph ≠ .fault → exec .acc s = .next (s.faulted .badPhase 0x0700000000000000#64)) ∧
  decode 0x0700000000000000#64 = .ok .acc ∧ (∀ low : Index, low ≠ 0#56 → ∃ e, decode (0x07#8 ++ low) = .error e)

/-- R201: `FMT` in `DONE` writes all 64 characters and the phase. -/
def Obligations.FmtWritesDigestText : Prop :=
  (∀ s : State, s.ph = .done →
    ∃ t, exec .fmt s = .next t ∧
      (∀ (i j : Fin 8) (n : Nat), n = s.h[i].toNat / 2 ^ (28 - 4 * j.val) % 16 →
        t.hex[8 * i.val + j.val].toNat = (if n ≤ 9 then 0x30 + n else 0x57 + n)) ∧
      t = { s with hex := t.hex, ph := .final, written := { s.written with hex := true } } ∧ t.doneOut = true ∧ t.hashValid = true) ∧
  (∀ s : State, s.ph ≠ .done → s.ph ≠ .fault → exec .fmt s = .next (s.faulted .badPhase 0x0800000000000000#64)) ∧
  decode 0x0800000000000000#64 = .ok .fmt ∧ (∀ low : Index, low ≠ 0#56 → ∃ e, decode (0x08#8 ++ low) = .error e)

/-- R191: the end state of `HASH`, with the digest of the message, and its faults. -/
def Obligations.HashComputesTheDigest : Prop :=
  (∀ (s : State) (m : List Byte), s.ph = .idle → s.messageIs m →
    ∃ t, exec .hash s = .next t ∧ t.ph = .final ∧
      t.h = compress (pad m) ∧ t.hex = fmt (compress (pad m)) ∧
      t.plen.toNat = (pad m).length ∧ t.pmsg.readBytes 0 t.plen.toNat = some (pad m) ∧
      (∀ a, t.plen.toNat ≤ a → t.pmsg.read a = s.pmsg.read a) ∧
      t.bi.toNat = t.nblk ∧ t.t = 64#7 ∧
      t.blkr = toBlock ((pad m).drop (64 * (t.nblk - 1))) ∧ t.w = schedule t.blkr ∧
      t.s = roundsFrom t.w (hashAfter (pad m) (t.nblk - 1)) 64 ∧ t.hashValid = true ∧ t.doneOut = true ∧
      t = { s with ph := t.ph, h := t.h, hex := t.hex, plen := t.plen, pmsg := t.pmsg, bi := t.bi, t := t.t, blkr := t.blkr,
                   w := t.w, s := t.s, written := ⟨true, true, true, true, true⟩ }) ∧
  (∀ s : State, s.ph ≠ .idle → s.ph ≠ .fault → exec .hash s = .next (s.faulted .badPhase 0x0900000000000000#64)) ∧
  decode 0x0900000000000000#64 = .ok .hash ∧ (∀ low : Index, low ≠ 0#56 → ∃ e, decode (0x09#8 ++ low) = .error e)

/-- R192: the commands of `HASHSEQ NBLK` presented one by one reach, in `3 + 68 * NBLK` steps, the state that the one command `HASH`
reaches. -/
def Obligations.HashseqReachesHashState : Prop :=
  ∀ (s : State) (m : List Byte) (rest : List HostAction) (n : Nat),
    s.ph = .idle → s.messageIs m → n = (pad m).length / 64 → s.port = presentAll (hashSeq n) ++ rest →
    (hashSeq n).length = 3 + 68 * n ∧
    ∃ t, runSteps (3 + 68 * n) s = .next t ∧ exec .hash { s with port := rest } = .next t ∧ t.ph = .final

/-- R145 and U1: `PAD` and `HASH` with `MLEN > MSG_CAP` are refused, not faulted. -/
def Obligations.OverlongMessageRefused : Prop :=
  ∀ s : State, s.ph = .idle → s.msgCap.toNat < s.mlen.toNat →
    exec .pad s = .refused .messageBeyondCapacity ∧ exec .hash s = .refused .messageBeyondCapacity

/-- The model's choice (log entry 2): `PAD` and `HASH` stop at the first message byte that holds no value. -/
def Obligations.UnwrittenMessageStops : Prop :=
  ∀ s : State, s.ph = .idle → s.mlen.toNat ≤ s.msgCap.toNat → s.msg.readBytes 0 s.mlen.toNat = none →
    ∃ a, a < s.mlen.toNat ∧ s.msg.read a = none ∧ (∀ x, x < a → (s.msg.read x).isSome = true) ∧
      exec .pad s = .fault (.unwrittenRead .msg a) ∧ exec .hash s = .fault (.unwrittenRead .msg a)

/-! ### Frames -/

/-- What `PAD` leaves unchanged, byte by byte: it stores to `PMSG[0..PLEN)` for the length it computes, and to nothing else;
`FC` and `FCMD` change only where it takes a fault. -/
def Obligations.PadFrame : Prop :=
  ∀ s t : State, exec .pad s = .next t →
    (∀ a, t.msg.read a = s.msg.read a) ∧
    (∀ m, s.ph = .idle → s.msg.readBytes 0 s.mlen.toNat = some m →
      ∀ a, (pad m).length ≤ a → t.pmsg.read a = s.pmsg.read a) ∧
    (s.ph ≠ .idle → ∀ a, t.pmsg.read a = s.pmsg.read a) ∧
    t.s = s.s ∧ t.h = s.h ∧ t.w = s.w ∧ t.blkr = s.blkr ∧ t.hex = s.hex ∧ t.bi = s.bi ∧ t.t = s.t ∧ t.mlen = s.mlen ∧
    t.msgCap = s.msgCap ∧ t.port = s.port ∧ t.written = s.written ∧
    (t.ph ≠ .fault ∨ s.ph = .fault → t.fc = s.fc ∧ t.fcmd = s.fcmd) ∧ (s.ph ≠ .idle → t.plen = s.plen)

/-- What the seven commands that store nothing to memory leave unchanged: every byte of both memories, and every register but
the command's own destinations; `FC` and `FCMD` change only where the command takes a fault. -/
def Obligations.RegisterCommandsFrame : Prop :=
  ∀ (i : Instr) (s t : State), i ≠ .pad → i ≠ .hash → exec i s = .next t →
    (∀ a, t.msg.read a = s.msg.read a) ∧ (∀ a, t.pmsg.read a = s.pmsg.read a) ∧
    t.mlen = s.mlen ∧ t.plen = s.plen ∧ t.msgCap = s.msgCap ∧ t.port = s.port ∧
    (t.ph ≠ .fault ∨ s.ph = .fault → t.fc = s.fc ∧ t.fcmd = s.fcmd) ∧
    (i ≠ .winit → (∀ idx, i ≠ .rnd idx) → t.s = s.s ∧ t.written.s = s.written.s) ∧
    (i ≠ .hinit → i ≠ .acc → t.h = s.h ∧ t.bi = s.bi ∧ t.written.h = s.written.h) ∧
    (i ≠ .sched → t.w = s.w ∧ t.written.w = s.written.w) ∧
    ((∀ idx, i ≠ .blk idx) → t.blkr = s.blkr ∧ t.written.blkr = s.written.blkr) ∧
    (i ≠ .fmt → t.hex = s.hex ∧ t.written.hex = s.written.hex) ∧
    (i ≠ .sched → (∀ idx, i ≠ .rnd idx) → t.t = s.t)

/-! ### Whole-machine rules -/

/-- R212: every command in a phase (or at a round count) that does not allow it raises `BAD_PHASE`, and nothing else changes. -/
def Obligations.WrongPhaseFaults : Prop :=
  ∀ (i : Instr) (s : State), s.ph ≠ .fault → ¬ s.allows i → exec i s = .next (s.faulted .badPhase (encode i))

/-- R216: decode is tested before phase, phase before range, range before index. -/
def Obligations.FaultPriority : Prop :=
  ∀ (s : State) (w : CommandWord) (rest : List HostAction), s.port = .command w :: rest → s.ph ≠ .fault →
    (∀ e, decode w = .error e → step s = .next ({ s with port := rest }.faulted .illegalCmd w)) ∧
    (∀ i, decode w = .ok i → ¬ s.allows i → step s = .next ({ s with port := rest }.faulted .badPhase w)) ∧
    (∀ idx, decode w = .ok (.blk idx) → s.allows (.blk idx) → s.nblk ≤ idx.toNat →
      step s = .next ({ s with port := rest }.faulted .outOfRange w)) ∧
    (∀ idx, decode w = .ok (.blk idx) → s.allows (.blk idx) → idx.toNat < s.nblk → idx ≠ s.bi →
      step s = .next ({ s with port := rest }.faulted .badIndex w)) ∧
    (∀ idx, decode w = .ok (.rnd idx) → s.allows (.rnd idx) → idx.toNat ≠ s.t.toNat →
      step s = .next ({ s with port := rest }.faulted .badIndex w)) ∧
    (s.SeqInv → ∀ idx, s.ph = .wset → s.nblk ≤ idx.toNat → idx ≠ s.bi)

/-- R215: whatever the word and the state, a step that takes a fault writes `FC`, `FCMD` (the whole word) and `PH`, and nothing
else; the output `fault` becomes 1, the others 0. -/
def Obligations.FaultsArePrecise : Prop :=
  ∀ (s t : State) (w : CommandWord) (rest : List HostAction),
    s.port = .command w :: rest → s.ph ≠ .fault → step s = .next t → t.ph = .fault →
    ∃ c, c ≠ .none ∧ t = { s with port := rest, fc := c, fcmd := w, ph := .fault } ∧
      t.faultOut = true ∧ t.hashValid = false ∧ t.doneOut = false

/-- R217: in `FAULT` every word is discarded with no state change at all; no host action but reset leaves `FAULT`. -/
def Obligations.FaultIsSticky : Prop :=
  (∀ (s : State) (w : CommandWord) (rest : List HostAction), s.ph = .fault → s.port = .command w :: rest →
    step s = .next { s with port := rest }) ∧
  (∀ s t : State, s.ph = .fault → step s = .next t → (∀ rest, s.port ≠ .reset :: rest) →
    t.ph = .fault ∧ t.fc = s.fc ∧ t.fcmd = s.fcmd ∧ t.doneOut = false ∧ t.hashValid = false)

/-- R189: in `FINAL` every command raises `BAD_PHASE` and every illegal word `ILLEGAL_CMD`, with `H` and `HEX` intact; only reset leads
from `FINAL` or `FAULT` to another phase than `FAULT`. -/
def Obligations.FinalIsTerminal : Prop :=
  (∀ (s : State) (w : CommandWord) (rest : List HostAction), s.ph = .final → s.port = .command w :: rest →
    ∃ t, step s = .next t ∧ t.ph = .fault ∧ t.h = s.h ∧ t.hex = s.hex ∧ t.doneOut = false ∧ t.hashValid = false ∧
      ((∃ i, decode w = .ok i) → t.fc = .badPhase) ∧ ((∃ e, decode w = .error e) → t.fc = .illegalCmd)) ∧
  (∀ s t : State, s.ph = .final ∨ s.ph = .fault → step s = .next t → (∀ rest, s.port ≠ .reset :: rest) →
    t.ph = s.ph ∨ t.ph = .fault)

/-- R186: a step that runs a command is a row of the transition table. -/
def Obligations.StepsFollowTransitionTable : Prop :=
  ∀ (s t : State) (w : CommandWord) (rest : List HostAction) (i : Instr),
    s.SeqInv → s.port = .command w :: rest → s.ph ≠ .fault → decode w = .ok i → step s = .next t → TransitionRow s t i

/-- R72 and R61: no command writes `MSG` (nor `MLEN` nor the parameter); once `IDLE` is left, only reset changes `PMSG` and `PLEN`
or leads back to `IDLE`; `PAD` and `HASH` in `IDLE` leave `IDLE`, and in another phase but `FAULT` they fault; a step from
`IDLE` that stays there or faults, whatever the host does, leaves `PMSG` and `PLEN` as they are unless it is reset. So `PMSG` is written
once per reset. -/
def Obligations.MemoriesAreImmutable : Prop :=
  (∀ (s t : State) (w : CommandWord) (rest : List HostAction), s.port = .command w :: rest → step s = .next t →
    t.msg = s.msg ∧ t.mlen = s.mlen ∧ t.msgCap = s.msgCap) ∧
  (∀ s t : State, s.ph ≠ .idle → (∀ rest, s.port ≠ .reset :: rest) → step s = .next t →
    t.pmsg = s.pmsg ∧ t.plen = s.plen ∧ t.ph ≠ .idle) ∧
  (∀ (s t : State) (w : CommandWord) (rest : List HostAction), s.port = .command w :: rest → step s = .next t →
    decode w = .ok .pad ∨ decode w = .ok .hash →
    (s.ph = .idle → t.ph = .padded ∨ t.ph = .final) ∧ (s.ph ≠ .idle → t.ph = .fault)) ∧
  (∀ s t : State, s.ph = .idle → (∀ rest, s.port ≠ .reset :: rest) → step s = .next t → t.ph = .idle ∨ t.ph = .fault →
    t.pmsg = s.pmsg ∧ t.plen = s.plen)

/-- R80: in any phase but `IDLE`, what a command does does not depend on `MSG` or `MLEN`: with another message there it does
the same and leaves that other message. -/
def Obligations.MessageWritesAfterPadAreHarmless : Prop :=
  ∀ (s : State) (w : CommandWord) (rest : List HostAction) (msg : Memory) (mlen : BitVec 64),
    s.ph ≠ .idle → s.port = .command w :: rest →
    step (s.withMessage msg mlen) = mapNext (fun t => t.withMessage msg mlen) (step s)

/-- R35, with R120 and R221: no step's control depends on a data value: states that differ only in the contents of the five data
register files and in the values of the bytes of `MSG` and `PMSG` (not in which bytes hold one) step to states that differ only there,
or stop alike. -/
def Obligations.ControlIgnoresData : Prop :=
  ∀ s s' : State, s.eraseData = s'.eraseData → mapNext State.eraseData (step s) = mapNext State.eraseData (step s')

/-- R251 and R187: `H` is held from `WINIT` to `ACC`, and `READY` is entered only by `HINIT` or by the `ACC` of the block before. -/
def Obligations.BlocksChainInOrder : Prop :=
  (∀ (s t : State) (w : CommandWord) (rest : List HostAction), s.ph = .wset ∨ s.ph = .loaded ∨ s.ph = .rounds →
    s.port = .command w :: rest → decode w ≠ .ok .acc → step s = .next t → t.h = s.h) ∧
  (∀ s t : State, step s = .next t → t.ph = .ready → s.ph ≠ .ready →
    (∃ rest, s.port = .command 0x0200000000000000#64 :: rest ∧ s.ph = .padded ∧ t.bi = 0#56) ∨
    (∃ rest, s.port = .command 0x0700000000000000#64 :: rest ∧ s.ph = .rounds ∧ s.t.toNat = 64 ∧ t.bi = s.bi + 1#56))

/-! ### Invariants -/

/-- The invariants hold right after reset. -/
def Obligations.InvariantsAtReset : Prop :=
  State.reset.SeqInv ∧ State.reset.writtenRules ∧ State.reset.dataRules ∧ State.reset.paddedFromMessage

/-- Every step keeps the sequencer's invariants of R33, the canonical form of both memories, and that the padded message fits and has
a value in every byte. -/
def Obligations.EveryStepKeepsSequencerInvariant : Prop :=
  ∀ s t : State, s.SeqInv → step s = .next t → t.SeqInv

/-- R51: every step keeps that the data registers which the phase's commands read have been written, so a run never reads one
that holds no value. The second clause names them for each command that is legal (R27). -/
def Obligations.EveryStepKeepsWrittenRegisters : Prop :=
  (∀ s t : State, s.writtenRules → step s = .next t → t.writtenRules) ∧
  (∀ s : State, s.writtenRules →
    (s.allows .winit → s.written.h = true) ∧
    (s.allows .sched → s.written.blkr = true) ∧
    (∀ idx, s.allows (.rnd idx) → s.written.s = true ∧ s.written.w = true) ∧
    (s.allows .acc → s.written.h = true ∧ s.written.s = true) ∧
    (s.allows .fmt → s.written.h = true) ∧
    (s.ph = .final → ∀ i, ∃ v, hostReadReg (.hex i) s = some v))

/-- Every step keeps the data path right: the hash state is that of the blocks absorbed, the working state that of the rounds
done, and in `DONE` and `FINAL` the hash state is `compress` of the padded message (R193). -/
def Obligations.EveryStepKeepsDataPath : Prop :=
  ∀ s t : State, s.SeqInv → s.dataRules → step s = .next t → t.dataRules

/-- Every step keeps that the padded message is the padding of a message that fits, so that in `FINAL` the text is that message's
digest (R193, R2). -/
def Obligations.EveryStepKeepsPaddedFromMessage : Prop :=
  (∀ s t : State, s.SeqInv → s.paddedFromMessage → step s = .next t → t.paddedFromMessage) ∧
  (∀ s : State, s.dataRules → s.paddedFromMessage → s.ph = .final →
    ∃ m : List Byte, m.length ≤ s.msgCap.toNat ∧ s.paddedMessage = pad m ∧ s.h = digestWords m ∧ s.hex = digest m)

/-- Where a step stops, from a state of the invariant: only on `PAD` or `HASH` in `IDLE` with a message beyond the capacity (U1) or with
a byte that holds no value (log entry 2), and on a host access that is refused: outside a memory (R69), or a read of a byte of memory
that holds no value (R51, U2, U3). A read of a register never stops. -/
def Obligations.StepStopsOnlyWhereTheSpecDoes : Prop :=
  ∀ s : State, s.SeqInv → (∀ t, step s ≠ .next t) →
    (∃ w rest, s.port = .command w :: rest ∧ (decode w = .ok .pad ∨ decode w = .ok .hash) ∧ s.ph = .idle ∧
      (s.msgCap.toNat < s.mlen.toNat ∨ ∃ a, a < s.mlen.toNat ∧ s.msg.read a = none)) ∨
    (∃ a b rest, s.port = .writeMsg a b :: rest ∧ s.capacity .msg ≤ a) ∨
    (∃ space a rest, s.port = .readByte space a :: rest ∧ (s.capacity space ≤ a ∨ (s.memory space).read a = none))
end

