-- ==== Sys2Proof/Laws/Memory.lean ====
section
/-! SUPPORT. The memory operations: every one keeps the canonical form; a read after a write gives the value written there and
leaves every other address alone; the same for byte sequences. -/

namespace Sys2Proof.Machine.Memory

/-! ### One byte -/

/-- The first address of a canonical memory, bounded from below. -/
def above (a : Nat) (m : Memory) : Prop := ∀ c ∈ m, a < c.1

theorem wf_cons_iff (c : Host.Cell) (m : Memory) : wf (c :: m) = true ↔ above c.1 m ∧ wf m = true := by
  induction m generalizing c with
  | nil => simp [wf, above]
  | cons d rest ih =>
    have hd := ih d
    simp only [wf, Bool.and_eq_true, decide_eq_true_eq]
    constructor
    · rintro ⟨hcd, hw⟩
      refine ⟨?_, hw⟩
      intro e he
      rcases List.mem_cons.1 he with rfl | he
      · exact hcd
      · exact Nat.lt_trans hcd ((hd.1 hw).1 e he)
    · rintro ⟨ha, hw⟩
      exact ⟨ha d (by simp), hw⟩

theorem mem_write {m : Memory} {a : Nat} {b : Byte} {c : Host.Cell} (h : c ∈ m.write a b) : c = (a, b) ∨ c ∈ m := by
  induction m with
  | nil => simpa [write] using h
  | cons d rest ih =>
    simp only [write] at h
    split at h
    · simpa using h
    · split at h
      · rcases List.mem_cons.1 h with h | h
        · exact .inl h
        · exact .inr (List.mem_cons_of_mem _ h)
      · rcases List.mem_cons.1 h with h | h
        · exact .inr (by simp [h])
        · exact (ih h).imp id (List.mem_cons_of_mem _)

/-- Storing a byte keeps the canonical form. -/
theorem write_wf {m : Memory} (a : Nat) (b : Byte) (h : m.wf = true) : (m.write a b).wf = true := by
  induction m with
  | nil => rfl
  | cons c rest ih =>
    have hc := (wf_cons_iff c rest).1 h
    simp only [write]
    split
    · rename_i hac
      rw [wf_cons_iff]
      refine ⟨?_, h⟩
      intro d hd
      rcases List.mem_cons.1 hd with rfl | hd
      · exact hac
      · exact Nat.lt_trans hac (hc.1 d hd)
    · split
      · rename_i heq
        rw [wf_cons_iff]
        exact ⟨fun d hd => heq ▸ hc.1 d hd, hc.2⟩
      · rename_i hac hne
        rw [wf_cons_iff]
        refine ⟨?_, ih hc.2⟩
        intro d hd
        rcases mem_write hd with rfl | hd
        · show c.1 < a
          omega
        · exact hc.1 d hd

/-- A read after a write at the same address gives the byte written. -/
@[simp] theorem read_write_same (m : Memory) (a : Nat) (b : Byte) : (m.write a b).read a = some b := by
  induction m with
  | nil => simp [write, read]
  | cons c rest ih =>
    simp only [write]
    split
    · simp [read]
    · split
      · simp [read]
      · rename_i hac hne
        simp only [read, if_neg hne, if_neg hac]
        exact ih

/-- A write leaves every other address alone. -/
theorem read_write_other (m : Memory) {a x : Nat} (b : Byte) (hx : x ≠ a) : (m.write a b).read x = m.read x := by
  induction m with
  | nil =>
    simp only [write, read]
    split
    · omega
    · split <;> rfl
  | cons c rest ih =>
    simp only [write]
    split
    · rename_i hac
      simp only [read]
      split
      · omega
      · split
        · split
          · omega
          · split
            · rfl
            · omega
        · rfl
    · split
      · rename_i heq
        simp only [read]
        subst heq
        rw [if_neg (Ne.symm hx), if_neg (Ne.symm hx)]
      · simp only [read]
        rw [ih]

/-! ### Byte sequences -/

theorem writeBytes_wf {m : Memory} (bs : List Byte) (h : m.wf = true) : ∀ a, (m.writeBytes a bs).wf = true := by
  induction bs with
  | nil => exact fun _ => h
  | cons b bs ih => exact fun a => write_wf a b (ih (a + 1))

theorem mem_writeBytes {m : Memory} {bs : List Byte} {c : Host.Cell} :
    ∀ {a}, c ∈ m.writeBytes a bs → (a ≤ c.1 ∧ c.1 < a + bs.length) ∨ c ∈ m := by
  induction bs with
  | nil => exact fun h => .inr h
  | cons b bs ih =>
    intro a h
    rcases mem_write h with rfl | h
    · left
      simp
    · rcases ih h with h | h
      · left
        simp only [List.length_cons]
        omega
      · exact .inr h

/-- Outside the stored range a byte sequence's write leaves every address alone. -/
theorem read_writeBytes_outside (m : Memory) (bs : List Byte) :
    ∀ {a x}, x < a ∨ a + bs.length ≤ x → (m.writeBytes a bs).read x = m.read x := by
  induction bs with
  | nil => intro a x _; rfl
  | cons b bs ih =>
    intro a x h
    simp only [List.length_cons] at h
    rw [writeBytes, read_write_other _ _ (by omega), ih (by omega)]

/-- Inside the stored range each address holds the byte of its place. -/
theorem read_writeBytes_inside (m : Memory) (bs : List Byte) :
    ∀ {a k}, k < bs.length → (m.writeBytes a bs).read (a + k) = bs[k]? := by
  induction bs with
  | nil => intro a k h; simp at h
  | cons b bs ih =>
    intro a k h
    cases k with
    | zero => simp [writeBytes]
    | succ k =>
      rw [writeBytes, read_write_other _ _ (by omega)]
      have := ih (a := a + 1) (k := k) (by simpa using h)
      rw [show a + (k + 1) = a + 1 + k by omega, this]
      simp

theorem readBytes_length {m : Memory} : ∀ {n a bs}, m.readBytes a n = some bs → bs.length = n
  | 0, _, _, h => by
    simp only [readBytes, Option.some.injEq] at h
    simp [← h]
  | n + 1, a, bs, h => by
    simp only [readBytes] at h
    split at h
    · cases h
    · split at h
      · cases h
      · rename_i hbs
        cases h
        simp [readBytes_length hbs]

/-- A byte sequence is read exactly when every one of its addresses holds its byte. -/
theorem readBytes_eq_some_iff {m : Memory} : ∀ {n a bs}, m.readBytes a n = some bs ↔
    bs.length = n ∧ ∀ k, k < n → m.read (a + k) = bs[k]?
  | 0, a, bs => by
    simp only [readBytes, Option.some.injEq]
    constructor
    · rintro rfl
      simp
    · rintro ⟨h, -⟩
      exact (List.length_eq_zero_iff.1 h).symm
  | n + 1, a, bs => by
    constructor
    · intro h
      refine ⟨readBytes_length h, ?_⟩
      simp only [readBytes] at h
      split at h
      · cases h
      · rename_i b hb
        split at h
        · cases h
        · rename_i bs' hbs
          cases h
          intro k hk
          cases k with
          | zero => simpa using hb
          | succ k =>
            have := (readBytes_eq_some_iff.1 hbs).2 k (by omega)
            rw [show a + (k + 1) = a + 1 + k by omega, this]
            simp
    · rintro ⟨hlen, hread⟩
      cases bs with
      | nil => simp at hlen
      | cons b bs =>
        have h0 : m.read a = some b := by simpa using hread 0 (by omega)
        have htail : m.readBytes (a + 1) n = some bs := by
          refine readBytes_eq_some_iff.2 ⟨by simpa using hlen, ?_⟩
          intro k hk
          have := hread (k + 1) (by omega)
          rw [show a + 1 + k = a + (k + 1) by omega, this]
          simp
        simp [readBytes, h0, htail]

/-- A byte sequence is not read exactly when one of its addresses holds no value. -/
theorem readBytes_eq_none_iff {m : Memory} : ∀ {n a}, m.readBytes a n = none ↔ ∃ k, k < n ∧ m.read (a + k) = none
  | 0, a => by simp [readBytes]
  | n + 1, a => by
    simp only [readBytes]
    split
    · rename_i h
      simp only [true_iff]
      exact ⟨0, by omega, h⟩
    · rename_i b hb
      split
      · rename_i h
        simp only [true_iff]
        obtain ⟨k, hk, hr⟩ := readBytes_eq_none_iff.1 h
        exact ⟨k + 1, by omega, by rw [show a + (k + 1) = a + 1 + k by omega]; exact hr⟩
      · rename_i bs h
        simp only [reduceCtorEq, false_iff, not_exists, not_and]
        intro k hk hr
        cases k with
        | zero => rw [Nat.add_zero, hb] at hr; cases hr
        | succ k =>
          have : m.readBytes (a + 1) n = none :=
            readBytes_eq_none_iff.2 ⟨k, by omega, by rw [show a + 1 + k = a + (k + 1) by omega]; exact hr⟩
          rw [this] at h
          cases h

/-- What was written is read back. -/
theorem readBytes_writeBytes (m : Memory) (a : Nat) (bs : List Byte) :
    (m.writeBytes a bs).readBytes a bs.length = some bs :=
  readBytes_eq_some_iff.2 ⟨rfl, fun _ hk => read_writeBytes_inside m bs hk⟩

/-- A part of a sequence that is read is read. -/
theorem readBytes_slice {m : Memory} {n a bs} (h : m.readBytes a n = some bs) {i k : Nat} (hik : i + k ≤ n) :
    m.readBytes (a + i) k = some ((bs.drop i).take k) := by
  obtain ⟨hlen, hread⟩ := readBytes_eq_some_iff.1 h
  refine readBytes_eq_some_iff.2 ⟨by simp; omega, ?_⟩
  intro j hj
  rw [show a + i + j = a + (i + j) by omega, hread (i + j) (by omega)]
  simp [hj]

/-- The address a stopped read reports is the first that holds no value. -/
theorem firstUnwritten_spec {m : Memory} : ∀ {n a}, m.readBytes a n = none →
    a ≤ m.firstUnwritten a n ∧ m.firstUnwritten a n < a + n ∧ m.read (m.firstUnwritten a n) = none ∧
      ∀ x, a ≤ x → x < m.firstUnwritten a n → (m.read x).isSome = true
  | 0, a, h => by simp [readBytes] at h
  | n + 1, a, h => by
    simp only [readBytes] at h
    simp only [firstUnwritten]
    split at h
    · rename_i ha
      exact ⟨Nat.le_refl _, by omega, ha, fun x h1 h2 => by omega⟩
    · rename_i b hb
      split at h
      · rename_i htail
        obtain ⟨h1, h2, h3, h4⟩ := firstUnwritten_spec htail
        refine ⟨by omega, by omega, h3, ?_⟩
        intro x hx1 hx2
        rcases Nat.eq_or_lt_of_le hx1 with rfl | hlt
        · simp [hb]
        · exact h4 x hlt hx2
      · cases h

end Sys2Proof.Machine.Memory
end

