-- ==== Sys2Proof/Laws/State.lean ====
section
/-! SUPPORT. One lemma per field per register write, true by rfl: no later proof unfolds a record update. -/

namespace Sys2Proof.Machine.State

variable (s : State)


/-! ### setS -/

@[simp] theorem setS_s (v : Vector Word 8) : (s.setS v).s = v := rfl
@[simp] theorem setS_h (v : Vector Word 8) : (s.setS v).h = s.h := rfl
@[simp] theorem setS_w (v : Vector Word 8) : (s.setS v).w = s.w := rfl
@[simp] theorem setS_blkr (v : Vector Word 8) : (s.setS v).blkr = s.blkr := rfl
@[simp] theorem setS_hex (v : Vector Word 8) : (s.setS v).hex = s.hex := rfl
@[simp] theorem setS_ph (v : Vector Word 8) : (s.setS v).ph = s.ph := rfl
@[simp] theorem setS_bi (v : Vector Word 8) : (s.setS v).bi = s.bi := rfl
@[simp] theorem setS_t (v : Vector Word 8) : (s.setS v).t = s.t := rfl
@[simp] theorem setS_mlen (v : Vector Word 8) : (s.setS v).mlen = s.mlen := rfl
@[simp] theorem setS_plen (v : Vector Word 8) : (s.setS v).plen = s.plen := rfl
@[simp] theorem setS_fc (v : Vector Word 8) : (s.setS v).fc = s.fc := rfl
@[simp] theorem setS_fcmd (v : Vector Word 8) : (s.setS v).fcmd = s.fcmd := rfl
@[simp] theorem setS_msg (v : Vector Word 8) : (s.setS v).msg = s.msg := rfl
@[simp] theorem setS_pmsg (v : Vector Word 8) : (s.setS v).pmsg = s.pmsg := rfl
@[simp] theorem setS_msgCap (v : Vector Word 8) : (s.setS v).msgCap = s.msgCap := rfl
@[simp] theorem setS_written (v : Vector Word 8) : (s.setS v).written = { s.written with s := true } := rfl
@[simp] theorem setS_port (v : Vector Word 8) : (s.setS v).port = s.port := rfl

/-! ### setH -/

@[simp] theorem setH_s (v : Vector Word 8) : (s.setH v).s = s.s := rfl
@[simp] theorem setH_h (v : Vector Word 8) : (s.setH v).h = v := rfl
@[simp] theorem setH_w (v : Vector Word 8) : (s.setH v).w = s.w := rfl
@[simp] theorem setH_blkr (v : Vector Word 8) : (s.setH v).blkr = s.blkr := rfl
@[simp] theorem setH_hex (v : Vector Word 8) : (s.setH v).hex = s.hex := rfl
@[simp] theorem setH_ph (v : Vector Word 8) : (s.setH v).ph = s.ph := rfl
@[simp] theorem setH_bi (v : Vector Word 8) : (s.setH v).bi = s.bi := rfl
@[simp] theorem setH_t (v : Vector Word 8) : (s.setH v).t = s.t := rfl
@[simp] theorem setH_mlen (v : Vector Word 8) : (s.setH v).mlen = s.mlen := rfl
@[simp] theorem setH_plen (v : Vector Word 8) : (s.setH v).plen = s.plen := rfl
@[simp] theorem setH_fc (v : Vector Word 8) : (s.setH v).fc = s.fc := rfl
@[simp] theorem setH_fcmd (v : Vector Word 8) : (s.setH v).fcmd = s.fcmd := rfl
@[simp] theorem setH_msg (v : Vector Word 8) : (s.setH v).msg = s.msg := rfl
@[simp] theorem setH_pmsg (v : Vector Word 8) : (s.setH v).pmsg = s.pmsg := rfl
@[simp] theorem setH_msgCap (v : Vector Word 8) : (s.setH v).msgCap = s.msgCap := rfl
@[simp] theorem setH_written (v : Vector Word 8) : (s.setH v).written = { s.written with h := true } := rfl
@[simp] theorem setH_port (v : Vector Word 8) : (s.setH v).port = s.port := rfl

/-! ### setW -/

@[simp] theorem setW_s (v : Vector Word 64) : (s.setW v).s = s.s := rfl
@[simp] theorem setW_h (v : Vector Word 64) : (s.setW v).h = s.h := rfl
@[simp] theorem setW_w (v : Vector Word 64) : (s.setW v).w = v := rfl
@[simp] theorem setW_blkr (v : Vector Word 64) : (s.setW v).blkr = s.blkr := rfl
@[simp] theorem setW_hex (v : Vector Word 64) : (s.setW v).hex = s.hex := rfl
@[simp] theorem setW_ph (v : Vector Word 64) : (s.setW v).ph = s.ph := rfl
@[simp] theorem setW_bi (v : Vector Word 64) : (s.setW v).bi = s.bi := rfl
@[simp] theorem setW_t (v : Vector Word 64) : (s.setW v).t = s.t := rfl
@[simp] theorem setW_mlen (v : Vector Word 64) : (s.setW v).mlen = s.mlen := rfl
@[simp] theorem setW_plen (v : Vector Word 64) : (s.setW v).plen = s.plen := rfl
@[simp] theorem setW_fc (v : Vector Word 64) : (s.setW v).fc = s.fc := rfl
@[simp] theorem setW_fcmd (v : Vector Word 64) : (s.setW v).fcmd = s.fcmd := rfl
@[simp] theorem setW_msg (v : Vector Word 64) : (s.setW v).msg = s.msg := rfl
@[simp] theorem setW_pmsg (v : Vector Word 64) : (s.setW v).pmsg = s.pmsg := rfl
@[simp] theorem setW_msgCap (v : Vector Word 64) : (s.setW v).msgCap = s.msgCap := rfl
@[simp] theorem setW_written (v : Vector Word 64) : (s.setW v).written = { s.written with w := true } := rfl
@[simp] theorem setW_port (v : Vector Word 64) : (s.setW v).port = s.port := rfl

/-! ### setBlkr -/

@[simp] theorem setBlkr_s (v : Vector Byte 64) : (s.setBlkr v).s = s.s := rfl
@[simp] theorem setBlkr_h (v : Vector Byte 64) : (s.setBlkr v).h = s.h := rfl
@[simp] theorem setBlkr_w (v : Vector Byte 64) : (s.setBlkr v).w = s.w := rfl
@[simp] theorem setBlkr_blkr (v : Vector Byte 64) : (s.setBlkr v).blkr = v := rfl
@[simp] theorem setBlkr_hex (v : Vector Byte 64) : (s.setBlkr v).hex = s.hex := rfl
@[simp] theorem setBlkr_ph (v : Vector Byte 64) : (s.setBlkr v).ph = s.ph := rfl
@[simp] theorem setBlkr_bi (v : Vector Byte 64) : (s.setBlkr v).bi = s.bi := rfl
@[simp] theorem setBlkr_t (v : Vector Byte 64) : (s.setBlkr v).t = s.t := rfl
@[simp] theorem setBlkr_mlen (v : Vector Byte 64) : (s.setBlkr v).mlen = s.mlen := rfl
@[simp] theorem setBlkr_plen (v : Vector Byte 64) : (s.setBlkr v).plen = s.plen := rfl
@[simp] theorem setBlkr_fc (v : Vector Byte 64) : (s.setBlkr v).fc = s.fc := rfl
@[simp] theorem setBlkr_fcmd (v : Vector Byte 64) : (s.setBlkr v).fcmd = s.fcmd := rfl
@[simp] theorem setBlkr_msg (v : Vector Byte 64) : (s.setBlkr v).msg = s.msg := rfl
@[simp] theorem setBlkr_pmsg (v : Vector Byte 64) : (s.setBlkr v).pmsg = s.pmsg := rfl
@[simp] theorem setBlkr_msgCap (v : Vector Byte 64) : (s.setBlkr v).msgCap = s.msgCap := rfl
@[simp] theorem setBlkr_written (v : Vector Byte 64) : (s.setBlkr v).written = { s.written with blkr := true } := rfl
@[simp] theorem setBlkr_port (v : Vector Byte 64) : (s.setBlkr v).port = s.port := rfl

/-! ### setHex -/

@[simp] theorem setHex_s (v : Vector Byte 64) : (s.setHex v).s = s.s := rfl
@[simp] theorem setHex_h (v : Vector Byte 64) : (s.setHex v).h = s.h := rfl
@[simp] theorem setHex_w (v : Vector Byte 64) : (s.setHex v).w = s.w := rfl
@[simp] theorem setHex_blkr (v : Vector Byte 64) : (s.setHex v).blkr = s.blkr := rfl
@[simp] theorem setHex_hex (v : Vector Byte 64) : (s.setHex v).hex = v := rfl
@[simp] theorem setHex_ph (v : Vector Byte 64) : (s.setHex v).ph = s.ph := rfl
@[simp] theorem setHex_bi (v : Vector Byte 64) : (s.setHex v).bi = s.bi := rfl
@[simp] theorem setHex_t (v : Vector Byte 64) : (s.setHex v).t = s.t := rfl
@[simp] theorem setHex_mlen (v : Vector Byte 64) : (s.setHex v).mlen = s.mlen := rfl
@[simp] theorem setHex_plen (v : Vector Byte 64) : (s.setHex v).plen = s.plen := rfl
@[simp] theorem setHex_fc (v : Vector Byte 64) : (s.setHex v).fc = s.fc := rfl
@[simp] theorem setHex_fcmd (v : Vector Byte 64) : (s.setHex v).fcmd = s.fcmd := rfl
@[simp] theorem setHex_msg (v : Vector Byte 64) : (s.setHex v).msg = s.msg := rfl
@[simp] theorem setHex_pmsg (v : Vector Byte 64) : (s.setHex v).pmsg = s.pmsg := rfl
@[simp] theorem setHex_msgCap (v : Vector Byte 64) : (s.setHex v).msgCap = s.msgCap := rfl
@[simp] theorem setHex_written (v : Vector Byte 64) : (s.setHex v).written = { s.written with hex := true } := rfl
@[simp] theorem setHex_port (v : Vector Byte 64) : (s.setHex v).port = s.port := rfl

/-! ### setPh -/

@[simp] theorem setPh_s (v : Phase) : (s.setPh v).s = s.s := rfl
@[simp] theorem setPh_h (v : Phase) : (s.setPh v).h = s.h := rfl
@[simp] theorem setPh_w (v : Phase) : (s.setPh v).w = s.w := rfl
@[simp] theorem setPh_blkr (v : Phase) : (s.setPh v).blkr = s.blkr := rfl
@[simp] theorem setPh_hex (v : Phase) : (s.setPh v).hex = s.hex := rfl
@[simp] theorem setPh_ph (v : Phase) : (s.setPh v).ph = v := rfl
@[simp] theorem setPh_bi (v : Phase) : (s.setPh v).bi = s.bi := rfl
@[simp] theorem setPh_t (v : Phase) : (s.setPh v).t = s.t := rfl
@[simp] theorem setPh_mlen (v : Phase) : (s.setPh v).mlen = s.mlen := rfl
@[simp] theorem setPh_plen (v : Phase) : (s.setPh v).plen = s.plen := rfl
@[simp] theorem setPh_fc (v : Phase) : (s.setPh v).fc = s.fc := rfl
@[simp] theorem setPh_fcmd (v : Phase) : (s.setPh v).fcmd = s.fcmd := rfl
@[simp] theorem setPh_msg (v : Phase) : (s.setPh v).msg = s.msg := rfl
@[simp] theorem setPh_pmsg (v : Phase) : (s.setPh v).pmsg = s.pmsg := rfl
@[simp] theorem setPh_msgCap (v : Phase) : (s.setPh v).msgCap = s.msgCap := rfl
@[simp] theorem setPh_written (v : Phase) : (s.setPh v).written = s.written := rfl
@[simp] theorem setPh_port (v : Phase) : (s.setPh v).port = s.port := rfl

/-! ### setBi -/

@[simp] theorem setBi_s (v : BitVec 56) : (s.setBi v).s = s.s := rfl
@[simp] theorem setBi_h (v : BitVec 56) : (s.setBi v).h = s.h := rfl
@[simp] theorem setBi_w (v : BitVec 56) : (s.setBi v).w = s.w := rfl
@[simp] theorem setBi_blkr (v : BitVec 56) : (s.setBi v).blkr = s.blkr := rfl
@[simp] theorem setBi_hex (v : BitVec 56) : (s.setBi v).hex = s.hex := rfl
@[simp] theorem setBi_ph (v : BitVec 56) : (s.setBi v).ph = s.ph := rfl
@[simp] theorem setBi_bi (v : BitVec 56) : (s.setBi v).bi = v := rfl
@[simp] theorem setBi_t (v : BitVec 56) : (s.setBi v).t = s.t := rfl
@[simp] theorem setBi_mlen (v : BitVec 56) : (s.setBi v).mlen = s.mlen := rfl
@[simp] theorem setBi_plen (v : BitVec 56) : (s.setBi v).plen = s.plen := rfl
@[simp] theorem setBi_fc (v : BitVec 56) : (s.setBi v).fc = s.fc := rfl
@[simp] theorem setBi_fcmd (v : BitVec 56) : (s.setBi v).fcmd = s.fcmd := rfl
@[simp] theorem setBi_msg (v : BitVec 56) : (s.setBi v).msg = s.msg := rfl
@[simp] theorem setBi_pmsg (v : BitVec 56) : (s.setBi v).pmsg = s.pmsg := rfl
@[simp] theorem setBi_msgCap (v : BitVec 56) : (s.setBi v).msgCap = s.msgCap := rfl
@[simp] theorem setBi_written (v : BitVec 56) : (s.setBi v).written = s.written := rfl
@[simp] theorem setBi_port (v : BitVec 56) : (s.setBi v).port = s.port := rfl

/-! ### setT -/

@[simp] theorem setT_s (v : BitVec 7) : (s.setT v).s = s.s := rfl
@[simp] theorem setT_h (v : BitVec 7) : (s.setT v).h = s.h := rfl
@[simp] theorem setT_w (v : BitVec 7) : (s.setT v).w = s.w := rfl
@[simp] theorem setT_blkr (v : BitVec 7) : (s.setT v).blkr = s.blkr := rfl
@[simp] theorem setT_hex (v : BitVec 7) : (s.setT v).hex = s.hex := rfl
@[simp] theorem setT_ph (v : BitVec 7) : (s.setT v).ph = s.ph := rfl
@[simp] theorem setT_bi (v : BitVec 7) : (s.setT v).bi = s.bi := rfl
@[simp] theorem setT_t (v : BitVec 7) : (s.setT v).t = v := rfl
@[simp] theorem setT_mlen (v : BitVec 7) : (s.setT v).mlen = s.mlen := rfl
@[simp] theorem setT_plen (v : BitVec 7) : (s.setT v).plen = s.plen := rfl
@[simp] theorem setT_fc (v : BitVec 7) : (s.setT v).fc = s.fc := rfl
@[simp] theorem setT_fcmd (v : BitVec 7) : (s.setT v).fcmd = s.fcmd := rfl
@[simp] theorem setT_msg (v : BitVec 7) : (s.setT v).msg = s.msg := rfl
@[simp] theorem setT_pmsg (v : BitVec 7) : (s.setT v).pmsg = s.pmsg := rfl
@[simp] theorem setT_msgCap (v : BitVec 7) : (s.setT v).msgCap = s.msgCap := rfl
@[simp] theorem setT_written (v : BitVec 7) : (s.setT v).written = s.written := rfl
@[simp] theorem setT_port (v : BitVec 7) : (s.setT v).port = s.port := rfl

/-! ### setMlen -/

@[simp] theorem setMlen_s (v : BitVec 64) : (s.setMlen v).s = s.s := rfl
@[simp] theorem setMlen_h (v : BitVec 64) : (s.setMlen v).h = s.h := rfl
@[simp] theorem setMlen_w (v : BitVec 64) : (s.setMlen v).w = s.w := rfl
@[simp] theorem setMlen_blkr (v : BitVec 64) : (s.setMlen v).blkr = s.blkr := rfl
@[simp] theorem setMlen_hex (v : BitVec 64) : (s.setMlen v).hex = s.hex := rfl
@[simp] theorem setMlen_ph (v : BitVec 64) : (s.setMlen v).ph = s.ph := rfl
@[simp] theorem setMlen_bi (v : BitVec 64) : (s.setMlen v).bi = s.bi := rfl
@[simp] theorem setMlen_t (v : BitVec 64) : (s.setMlen v).t = s.t := rfl
@[simp] theorem setMlen_mlen (v : BitVec 64) : (s.setMlen v).mlen = v := rfl
@[simp] theorem setMlen_plen (v : BitVec 64) : (s.setMlen v).plen = s.plen := rfl
@[simp] theorem setMlen_fc (v : BitVec 64) : (s.setMlen v).fc = s.fc := rfl
@[simp] theorem setMlen_fcmd (v : BitVec 64) : (s.setMlen v).fcmd = s.fcmd := rfl
@[simp] theorem setMlen_msg (v : BitVec 64) : (s.setMlen v).msg = s.msg := rfl
@[simp] theorem setMlen_pmsg (v : BitVec 64) : (s.setMlen v).pmsg = s.pmsg := rfl
@[simp] theorem setMlen_msgCap (v : BitVec 64) : (s.setMlen v).msgCap = s.msgCap := rfl
@[simp] theorem setMlen_written (v : BitVec 64) : (s.setMlen v).written = s.written := rfl
@[simp] theorem setMlen_port (v : BitVec 64) : (s.setMlen v).port = s.port := rfl

/-! ### setPlen -/

@[simp] theorem setPlen_s (v : BitVec 64) : (s.setPlen v).s = s.s := rfl
@[simp] theorem setPlen_h (v : BitVec 64) : (s.setPlen v).h = s.h := rfl
@[simp] theorem setPlen_w (v : BitVec 64) : (s.setPlen v).w = s.w := rfl
@[simp] theorem setPlen_blkr (v : BitVec 64) : (s.setPlen v).blkr = s.blkr := rfl
@[simp] theorem setPlen_hex (v : BitVec 64) : (s.setPlen v).hex = s.hex := rfl
@[simp] theorem setPlen_ph (v : BitVec 64) : (s.setPlen v).ph = s.ph := rfl
@[simp] theorem setPlen_bi (v : BitVec 64) : (s.setPlen v).bi = s.bi := rfl
@[simp] theorem setPlen_t (v : BitVec 64) : (s.setPlen v).t = s.t := rfl
@[simp] theorem setPlen_mlen (v : BitVec 64) : (s.setPlen v).mlen = s.mlen := rfl
@[simp] theorem setPlen_plen (v : BitVec 64) : (s.setPlen v).plen = v := rfl
@[simp] theorem setPlen_fc (v : BitVec 64) : (s.setPlen v).fc = s.fc := rfl
@[simp] theorem setPlen_fcmd (v : BitVec 64) : (s.setPlen v).fcmd = s.fcmd := rfl
@[simp] theorem setPlen_msg (v : BitVec 64) : (s.setPlen v).msg = s.msg := rfl
@[simp] theorem setPlen_pmsg (v : BitVec 64) : (s.setPlen v).pmsg = s.pmsg := rfl
@[simp] theorem setPlen_msgCap (v : BitVec 64) : (s.setPlen v).msgCap = s.msgCap := rfl
@[simp] theorem setPlen_written (v : BitVec 64) : (s.setPlen v).written = s.written := rfl
@[simp] theorem setPlen_port (v : BitVec 64) : (s.setPlen v).port = s.port := rfl

/-! ### setFc -/

@[simp] theorem setFc_s (v : FaultCode) : (s.setFc v).s = s.s := rfl
@[simp] theorem setFc_h (v : FaultCode) : (s.setFc v).h = s.h := rfl
@[simp] theorem setFc_w (v : FaultCode) : (s.setFc v).w = s.w := rfl
@[simp] theorem setFc_blkr (v : FaultCode) : (s.setFc v).blkr = s.blkr := rfl
@[simp] theorem setFc_hex (v : FaultCode) : (s.setFc v).hex = s.hex := rfl
@[simp] theorem setFc_ph (v : FaultCode) : (s.setFc v).ph = s.ph := rfl
@[simp] theorem setFc_bi (v : FaultCode) : (s.setFc v).bi = s.bi := rfl
@[simp] theorem setFc_t (v : FaultCode) : (s.setFc v).t = s.t := rfl
@[simp] theorem setFc_mlen (v : FaultCode) : (s.setFc v).mlen = s.mlen := rfl
@[simp] theorem setFc_plen (v : FaultCode) : (s.setFc v).plen = s.plen := rfl
@[simp] theorem setFc_fc (v : FaultCode) : (s.setFc v).fc = v := rfl
@[simp] theorem setFc_fcmd (v : FaultCode) : (s.setFc v).fcmd = s.fcmd := rfl
@[simp] theorem setFc_msg (v : FaultCode) : (s.setFc v).msg = s.msg := rfl
@[simp] theorem setFc_pmsg (v : FaultCode) : (s.setFc v).pmsg = s.pmsg := rfl
@[simp] theorem setFc_msgCap (v : FaultCode) : (s.setFc v).msgCap = s.msgCap := rfl
@[simp] theorem setFc_written (v : FaultCode) : (s.setFc v).written = s.written := rfl
@[simp] theorem setFc_port (v : FaultCode) : (s.setFc v).port = s.port := rfl

/-! ### setFcmd -/

@[simp] theorem setFcmd_s (v : CommandWord) : (s.setFcmd v).s = s.s := rfl
@[simp] theorem setFcmd_h (v : CommandWord) : (s.setFcmd v).h = s.h := rfl
@[simp] theorem setFcmd_w (v : CommandWord) : (s.setFcmd v).w = s.w := rfl
@[simp] theorem setFcmd_blkr (v : CommandWord) : (s.setFcmd v).blkr = s.blkr := rfl
@[simp] theorem setFcmd_hex (v : CommandWord) : (s.setFcmd v).hex = s.hex := rfl
@[simp] theorem setFcmd_ph (v : CommandWord) : (s.setFcmd v).ph = s.ph := rfl
@[simp] theorem setFcmd_bi (v : CommandWord) : (s.setFcmd v).bi = s.bi := rfl
@[simp] theorem setFcmd_t (v : CommandWord) : (s.setFcmd v).t = s.t := rfl
@[simp] theorem setFcmd_mlen (v : CommandWord) : (s.setFcmd v).mlen = s.mlen := rfl
@[simp] theorem setFcmd_plen (v : CommandWord) : (s.setFcmd v).plen = s.plen := rfl
@[simp] theorem setFcmd_fc (v : CommandWord) : (s.setFcmd v).fc = s.fc := rfl
@[simp] theorem setFcmd_fcmd (v : CommandWord) : (s.setFcmd v).fcmd = v := rfl
@[simp] theorem setFcmd_msg (v : CommandWord) : (s.setFcmd v).msg = s.msg := rfl
@[simp] theorem setFcmd_pmsg (v : CommandWord) : (s.setFcmd v).pmsg = s.pmsg := rfl
@[simp] theorem setFcmd_msgCap (v : CommandWord) : (s.setFcmd v).msgCap = s.msgCap := rfl
@[simp] theorem setFcmd_written (v : CommandWord) : (s.setFcmd v).written = s.written := rfl
@[simp] theorem setFcmd_port (v : CommandWord) : (s.setFcmd v).port = s.port := rfl

/-! ### setMsg -/

@[simp] theorem setMsg_s (v : Memory) : (s.setMsg v).s = s.s := rfl
@[simp] theorem setMsg_h (v : Memory) : (s.setMsg v).h = s.h := rfl
@[simp] theorem setMsg_w (v : Memory) : (s.setMsg v).w = s.w := rfl
@[simp] theorem setMsg_blkr (v : Memory) : (s.setMsg v).blkr = s.blkr := rfl
@[simp] theorem setMsg_hex (v : Memory) : (s.setMsg v).hex = s.hex := rfl
@[simp] theorem setMsg_ph (v : Memory) : (s.setMsg v).ph = s.ph := rfl
@[simp] theorem setMsg_bi (v : Memory) : (s.setMsg v).bi = s.bi := rfl
@[simp] theorem setMsg_t (v : Memory) : (s.setMsg v).t = s.t := rfl
@[simp] theorem setMsg_mlen (v : Memory) : (s.setMsg v).mlen = s.mlen := rfl
@[simp] theorem setMsg_plen (v : Memory) : (s.setMsg v).plen = s.plen := rfl
@[simp] theorem setMsg_fc (v : Memory) : (s.setMsg v).fc = s.fc := rfl
@[simp] theorem setMsg_fcmd (v : Memory) : (s.setMsg v).fcmd = s.fcmd := rfl
@[simp] theorem setMsg_msg (v : Memory) : (s.setMsg v).msg = v := rfl
@[simp] theorem setMsg_pmsg (v : Memory) : (s.setMsg v).pmsg = s.pmsg := rfl
@[simp] theorem setMsg_msgCap (v : Memory) : (s.setMsg v).msgCap = s.msgCap := rfl
@[simp] theorem setMsg_written (v : Memory) : (s.setMsg v).written = s.written := rfl
@[simp] theorem setMsg_port (v : Memory) : (s.setMsg v).port = s.port := rfl

/-! ### setPmsg -/

@[simp] theorem setPmsg_s (v : Memory) : (s.setPmsg v).s = s.s := rfl
@[simp] theorem setPmsg_h (v : Memory) : (s.setPmsg v).h = s.h := rfl
@[simp] theorem setPmsg_w (v : Memory) : (s.setPmsg v).w = s.w := rfl
@[simp] theorem setPmsg_blkr (v : Memory) : (s.setPmsg v).blkr = s.blkr := rfl
@[simp] theorem setPmsg_hex (v : Memory) : (s.setPmsg v).hex = s.hex := rfl
@[simp] theorem setPmsg_ph (v : Memory) : (s.setPmsg v).ph = s.ph := rfl
@[simp] theorem setPmsg_bi (v : Memory) : (s.setPmsg v).bi = s.bi := rfl
@[simp] theorem setPmsg_t (v : Memory) : (s.setPmsg v).t = s.t := rfl
@[simp] theorem setPmsg_mlen (v : Memory) : (s.setPmsg v).mlen = s.mlen := rfl
@[simp] theorem setPmsg_plen (v : Memory) : (s.setPmsg v).plen = s.plen := rfl
@[simp] theorem setPmsg_fc (v : Memory) : (s.setPmsg v).fc = s.fc := rfl
@[simp] theorem setPmsg_fcmd (v : Memory) : (s.setPmsg v).fcmd = s.fcmd := rfl
@[simp] theorem setPmsg_msg (v : Memory) : (s.setPmsg v).msg = s.msg := rfl
@[simp] theorem setPmsg_pmsg (v : Memory) : (s.setPmsg v).pmsg = v := rfl
@[simp] theorem setPmsg_msgCap (v : Memory) : (s.setPmsg v).msgCap = s.msgCap := rfl
@[simp] theorem setPmsg_written (v : Memory) : (s.setPmsg v).written = s.written := rfl
@[simp] theorem setPmsg_port (v : Memory) : (s.setPmsg v).port = s.port := rfl

/-! ### setPort -/

@[simp] theorem setPort_s (v : List HostAction) : (s.setPort v).s = s.s := rfl
@[simp] theorem setPort_h (v : List HostAction) : (s.setPort v).h = s.h := rfl
@[simp] theorem setPort_w (v : List HostAction) : (s.setPort v).w = s.w := rfl
@[simp] theorem setPort_blkr (v : List HostAction) : (s.setPort v).blkr = s.blkr := rfl
@[simp] theorem setPort_hex (v : List HostAction) : (s.setPort v).hex = s.hex := rfl
@[simp] theorem setPort_ph (v : List HostAction) : (s.setPort v).ph = s.ph := rfl
@[simp] theorem setPort_bi (v : List HostAction) : (s.setPort v).bi = s.bi := rfl
@[simp] theorem setPort_t (v : List HostAction) : (s.setPort v).t = s.t := rfl
@[simp] theorem setPort_mlen (v : List HostAction) : (s.setPort v).mlen = s.mlen := rfl
@[simp] theorem setPort_plen (v : List HostAction) : (s.setPort v).plen = s.plen := rfl
@[simp] theorem setPort_fc (v : List HostAction) : (s.setPort v).fc = s.fc := rfl
@[simp] theorem setPort_fcmd (v : List HostAction) : (s.setPort v).fcmd = s.fcmd := rfl
@[simp] theorem setPort_msg (v : List HostAction) : (s.setPort v).msg = s.msg := rfl
@[simp] theorem setPort_pmsg (v : List HostAction) : (s.setPort v).pmsg = s.pmsg := rfl
@[simp] theorem setPort_msgCap (v : List HostAction) : (s.setPort v).msgCap = s.msgCap := rfl
@[simp] theorem setPort_written (v : List HostAction) : (s.setPort v).written = s.written := rfl
@[simp] theorem setPort_port (v : List HostAction) : (s.setPort v).port = v := rfl

end Sys2Proof.Machine.State
end

