-- ==== Sys2Proof/Laws/Ops.lean ====
section
/-! SUPPORT. One lemma for each shared operation that says once everything it can do: fault entry, the phase test, sequencing, and
the effects that have more than one outcome. -/

namespace Sys2Proof.Machine

/-! ### Fault entry -/

/-- Fault entry, field by field. -/
theorem takeFault_eq (c : FaultCode) (cmd : CommandWord) (s : State) : takeFault c cmd s = s.faulted c cmd := rfl

/-! ### The phase test -/

@[simp] theorem whenLegal_in_fault {i : Instr} {b : Bool} {f : State → Result} {s : State} (h : s.ph = .fault) :
    whenLegal i b f s = .next s := by simp [whenLegal, h]

theorem whenLegal_of_legal {i : Instr} {b : Bool} {f : State → Result} {s : State} (h : s.ph ≠ .fault) (hb : b = true) :
    whenLegal i b f s = f s := by simp [whenLegal, h, hb]

theorem whenLegal_of_not_legal {i : Instr} {b : Bool} {f : State → Result} {s : State} (h : s.ph ≠ .fault) (hb : b = false) :
    whenLegal i b f s = .next (s.faulted .badPhase (encode i)) := by simp [whenLegal, h, hb, takeFault_eq]

/-- Everything the phase test can answer with a next state. -/
theorem whenLegal_next {i : Instr} {b : Bool} {f : State → Result} {s t : State} (h : whenLegal i b f s = .next t) :
    (s.ph = .fault ∧ t = s) ∨ (s.ph ≠ .fault ∧ b = true ∧ f s = .next t) ∨
      (s.ph ≠ .fault ∧ b = false ∧ t = s.faulted .badPhase (encode i)) := by
  unfold whenLegal at h
  split at h
  · rename_i hf
    cases h
    exact .inl ⟨hf, rfl⟩
  · rename_i hf
    split at h
    · rename_i hb
      exact .inr (.inl ⟨hf, hb, h⟩)
    · rename_i hb
      cases h
      exact .inr (.inr ⟨hf, by simpa using hb, rfl⟩)

/-! ### Sequencing -/

@[simp] theorem andThen_next (s : State) (f : State → Result) : andThen (.next s) f = f s := rfl

theorem andThen_eq_next {r : Result} {f : State → Result} {t : State} (h : andThen r f = .next t) :
    ∃ s, r = .next s ∧ f s = .next t := by
  cases r with
  | next s => exact ⟨s, rfl, h⟩
  | fault e => cases h
  | refused e => cases h

theorem andThen_assoc (r : Result) (f g : State → Result) : andThen (andThen r f) g = andThen r (fun s => andThen (f s) g) := by
  cases r <;> rfl

/-! ### Effects with more than one outcome -/

/-- `PAD` in `IDLE` answers a next state only for a message that fits and is written, and then this one. -/
theorem padEffect_next {s t : State} (h : padEffect s = .next t) :
    ∃ m, s.messageIs m ∧ t = { s with
      pmsg := s.pmsg.writeBytes 0 (pad m), plen := BitVec.ofNat 64 (pad m).length, ph := .padded } := by
  unfold padEffect at h
  split at h
  · cases h
  · rename_i hcap
    split at h
    · cases h
    · rename_i m hm
      cases h
      exact ⟨m, ⟨Nat.not_lt.1 hcap, hm⟩, rfl⟩

/-- `PAD` in `IDLE` on a message that fits and is written. -/
theorem padEffect_of_message {s : State} {m : List Byte} (h : s.messageIs m) :
    padEffect s = .next { s with
      pmsg := s.pmsg.writeBytes 0 (pad m), plen := BitVec.ofNat 64 (pad m).length, ph := .padded } := by
  unfold padEffect
  rw [if_neg (Nat.not_lt.2 h.1), h.2]
  rfl

/-- What `BLK idx` can answer with a next state in `WSET`: the two faults in their order, or the load. -/
theorem blkEffect_next {idx : Index} {s t : State} (h : blkEffect idx s = .next t) :
    (s.nblk ≤ idx.toNat ∧ t = s.faulted .outOfRange (encode (.blk idx))) ∨
    (idx.toNat < s.nblk ∧ idx ≠ s.bi ∧ t = s.faulted .badIndex (encode (.blk idx))) ∨
    (idx.toNat < s.nblk ∧ idx = s.bi ∧
      ∃ bs, s.pmsg.readBytes (64 * idx.toNat) 64 = some bs ∧ t = { s with
        blkr := toBlock bs, ph := .loaded, written := { s.written with blkr := true } }) := by
  unfold blkEffect at h
  split at h
  · rename_i hr
    cases h
    exact .inl ⟨by simpa [idxOutOfRange] using hr, rfl⟩
  · rename_i hr
    have hlt : idx.toNat < s.nblk := by simpa [idxOutOfRange] using hr
    split at h
    · rename_i hi
      cases h
      exact .inr (.inl ⟨hlt, by simpa [idxIsNotBlock] using hi, rfl⟩)
    · rename_i hi
      split at h
      · cases h
      · rename_i bs hbs
        cases h
        have hidx : idx = s.bi := by simpa [idxIsNotBlock] using hi
        refine .inr (.inr ⟨hlt, hidx, bs, ?_, ?_⟩)
        · rw [← hbs, blockStart]
        · simp only [State.setBlkr, State.setPh]

/-- What `RND idx` answers in `ROUNDS` with `T < 64`: the index fault, or one round. -/
theorem rndEffect_next {idx : Index} {s t : State} (h : rndEffect idx s = .next t) :
    (idx ≠ s.t.setWidth 56 ∧ t = s.faulted .badIndex (encode (.rnd idx))) ∨
    (idx = s.t.setWidth 56 ∧ t = { s with
      s := compressionRound s.s (scheduleEntry s.w s.t.toNat) (roundConstant s.t.toNat), t := s.t + 1#7,
      written := { s.written with s := true } }) := by
  unfold rndEffect at h
  split at h
  · rename_i hi
    cases h
    exact .inl ⟨by simpa [idxIsNotRound] using hi, rfl⟩
  · rename_i hi
    cases h
    exact .inr ⟨by simpa [idxIsNotRound] using hi, rfl⟩

/-- The round index as a command's index. -/
theorem idx_eq_round_iff (idx : Index) (t : BitVec 7) : idx = t.setWidth 56 ↔ idx.toNat = t.toNat := by
  constructor
  · rintro rfl
    simp [BitVec.toNat_setWidth]
    omega
  · intro h
    apply BitVec.eq_of_toNat_eq
    rw [h, BitVec.toNat_setWidth, Nat.mod_eq_of_lt (by omega)]

/-! ### Memories with their bytes erased -/

@[simp] theorem read_eraseBytes (m : Memory) (a : Nat) : (eraseBytes m).read a = (m.read a).map fun _ => 0x00#8 := by
  induction m with
  | nil => rfl
  | cons c rest ih =>
    change (if c.1 = a then some 0x00#8 else if a < c.1 then none else (eraseBytes rest).read a) =
      Option.map (fun _ => 0x00#8) (if c.1 = a then some c.2 else if a < c.1 then none else Memory.read rest a)
    rw [ih]
    split
    · rfl
    · split <;> rfl

/-- Which addresses hold a value after a write does not depend on the values. -/
theorem eraseBytes_write (m : Memory) (a : Nat) (b : Byte) : eraseBytes (m.write a b) = (eraseBytes m).write a 0x00#8 := by
  induction m with
  | nil => rfl
  | cons c rest ih =>
    change eraseBytes (if a < c.1 then (a, b) :: c :: rest else if c.1 = a then (a, b) :: rest else c :: Memory.write rest a b) =
      (if a < c.1 then (a, 0x00#8) :: (c.1, 0x00#8) :: eraseBytes rest
        else if c.1 = a then (a, 0x00#8) :: eraseBytes rest else (c.1, 0x00#8) :: (eraseBytes rest).write a 0x00#8)
    rw [← ih]
    split
    · rfl
    · split <;> rfl

/-- A read of several bytes succeeds or not, whatever the values. -/
theorem readBytes_eraseBytes (m : Memory) : ∀ (n a : Nat),
    (eraseBytes m).readBytes a n = (m.readBytes a n).map fun bs => bs.map fun _ => 0x00#8
  | 0, _ => rfl
  | n + 1, a => by
    rw [Memory.readBytes, Memory.readBytes, read_eraseBytes, readBytes_eraseBytes m n (a + 1)]
    cases m.read a with
    | none => rfl
    | some b => cases m.readBytes (a + 1) n <;> rfl

@[simp] theorem firstUnwritten_eraseBytes (m : Memory) : ∀ (n a : Nat),
    (eraseBytes m).firstUnwritten a n = m.firstUnwritten a n
  | 0, _ => rfl
  | n + 1, a => by
    rw [Memory.firstUnwritten, Memory.firstUnwritten, read_eraseBytes, firstUnwritten_eraseBytes m n (a + 1)]
    cases m.read a <;> rfl

/-- A write of several bytes leaves the same addresses with a value for every values of the same length. -/
theorem eraseBytes_writeBytes (bs : List Byte) : ∀ (m : Memory) (a : Nat),
    eraseBytes (m.writeBytes a bs) = (eraseBytes m).writeBytes a (bs.map fun _ => 0x00#8) := by
  induction bs with
  | nil => intro m a; rfl
  | cons b bs ih =>
    intro m a
    rw [Memory.writeBytes, eraseBytes_write, ih, List.map_cons, Memory.writeBytes]

@[simp] theorem eraseBytes_idem (m : Memory) : eraseBytes (eraseBytes m) = eraseBytes m := by
  simp [eraseBytes]

/-! ### Fields of a word -/

theorem joinFields_getLsbD (op : BitVec 8) (low : Index) (i : Nat) :
    (joinFields op low).getLsbD i = if i < 56 then low.getLsbD i else op.getLsbD (i - 56) :=
  BitVec.getLsbD_append

@[simp] theorem splitWord_joinFields (op : BitVec 8) (low : Index) : splitWord (joinFields op low) = ⟨op, low⟩ := by
  unfold splitWord
  congr 1
  · apply BitVec.eq_of_getLsbD_eq
    intro i hi
    rw [BitVec.getLsbD_extractLsb', joinFields_getLsbD]
    simp [hi]
  · apply BitVec.eq_of_getLsbD_eq
    intro i hi
    rw [BitVec.getLsbD_setWidth, joinFields_getLsbD]
    simp [hi]

@[simp] theorem joinFields_splitWord (w : CommandWord) : joinFields (splitWord w).op (splitWord w).low = w := by
  apply BitVec.eq_of_getLsbD_eq
  intro i hi
  rw [joinFields_getLsbD]
  unfold splitWord
  split
  · rename_i h
    rw [BitVec.getLsbD_setWidth]
    simp [h]
  · rename_i h
    rw [BitVec.getLsbD_extractLsb', Nat.add_sub_cancel' (Nat.not_lt.1 h)]
    simp
    omega

end Sys2Proof.Machine
end

