-- ==== Sys2Proof/Laws/PerInstr.lean ====
section
/-! SUPPORT. One statement for each command, as syntax: what the fields of its word are, and that they are well formed. -/

namespace Sys2Proof.Laws.WordFields

/-- The word of a command carries the command's opcode in its top byte, its index (or zero) below, and its fields are legal
(30_encoding.md R91, R92, R94). -/
def Statement (i : Instr) : Prop :=
  (splitWord (encode i)).op = i.mnemonic.opcode ∧
  (splitWord (encode i)).wf = true ∧
  (i.mnemonic.format = .n → (splitWord (encode i)).low = 0#56) ∧
  (∀ idx, i = .blk idx ∨ i = .rnd idx → (splitWord (encode i)).low = idx)

theorem pad : Statement .pad := by
  refine ⟨?_, ?_, ?_, ?_⟩ <;> simp [encode] <;> decide

theorem hinit : Statement .hinit := by
  refine ⟨?_, ?_, ?_, ?_⟩ <;> simp [encode] <;> decide

theorem winit : Statement .winit := by
  refine ⟨?_, ?_, ?_, ?_⟩ <;> simp [encode] <;> decide

theorem blk (idx : Index) : Statement (.blk idx) := by
  refine ⟨?_, ?_, ?_, ?_⟩ <;> simp [encode, Instr.mnemonic, Mnemonic.opcode, Mnemonic.format, Fields.wf, Fields.assigned, Fields.hasIndex]

theorem sched : Statement .sched := by
  refine ⟨?_, ?_, ?_, ?_⟩ <;> simp [encode] <;> decide

theorem rnd (idx : Index) : Statement (.rnd idx) := by
  refine ⟨?_, ?_, ?_, ?_⟩ <;> simp [encode, Instr.mnemonic, Mnemonic.opcode, Mnemonic.format, Fields.wf, Fields.assigned, Fields.hasIndex]

theorem acc : Statement .acc := by
  refine ⟨?_, ?_, ?_, ?_⟩ <;> simp [encode] <;> decide

theorem fmt : Statement .fmt := by
  refine ⟨?_, ?_, ?_, ?_⟩ <;> simp [encode] <;> decide

theorem hash : Statement .hash := by
  refine ⟨?_, ?_, ?_, ?_⟩ <;> simp [encode] <;> decide

end Sys2Proof.Laws.WordFields
end

