-- ==== Sys2Proof/Laws/Pure.lean ====
section
/-! SUPPORT. One lemma for each pure function that a command writes a register file with: what element `i` is. -/

namespace Sys2Proof.Machine

@[simp] theorem tabulate_getElem {α : Type} {n : Nat} (f : Fin n → α) (i : Nat) (h : i < n) : (tabulate f)[i] = f ⟨i, h⟩ := by
  simp [tabulate]

/-- Byte `k` of a block is byte `k` of the sequence it is made of. -/
theorem toBlock_getElem (bs : List Byte) (k : Nat) (h : k < 64) : (toBlock bs)[k] = bs.getD k 0#8 := by
  rw [toBlock, tabulate_getElem]

/-- A block depends on the first 64 bytes only. -/
theorem toBlock_take (bs : List Byte) : toBlock (bs.take 64) = toBlock bs := by
  apply Vector.ext
  intro k hk
  rw [toBlock_getElem _ _ hk, toBlock_getElem _ _ hk]
  simp [List.getD, hk]

/-- Lane `i` of the sum reads lane `i` of each register file only. -/
theorem addLanes_getElem (h s : Vector Word 8) (i : Nat) (hi : i < 8) : (addLanes h s)[i] = add32 h[i] s[i] := by
  rw [addLanes, tabulate_getElem]
  rfl

/-- Character `k` of the digest text. -/
theorem fmt_getElem (h : Vector Word 8) (k : Nat) (hk : k < 64) :
    (fmt h)[k] = hexchar (hexDigit (h[k / 8]'(by omega)) (k % 8)) := by
  rw [fmt, tabulate_getElem]

/-- Byte `k` of the digest's byte view. -/
theorem digestBytes_getElem (h : Vector Word 8) (k : Nat) (hk : k < 32) :
    (digestBytes h)[k] = ((h[k / 4]'(by omega)) >>> (24 - 8 * (k % 4))).setWidth 8 := by
  rw [digestBytes, tabulate_getElem]

/-- A schedule word is read from the expanded list. -/
theorem schedule_getElem (b : Vector Byte 64) (i : Nat) (h : i < 64) :
    (schedule b)[i] = (extendSchedule 48 (blockWords b)).getD i 0#32 := by
  rw [schedule, tabulate_getElem]

theorem blockWords_length (b : Vector Byte 64) : (blockWords b).length = 16 := by simp [blockWords]

theorem extendSchedule_length : ∀ (n : Nat) (ws : List Word), (extendSchedule n ws).length = ws.length + n
  | 0, _ => rfl
  | n + 1, ws => by
    rw [extendSchedule, extendSchedule_length n]
    simp
    omega

/-- Expanding keeps the words already there. -/
theorem extendSchedule_getD : ∀ (n : Nat) (ws : List Word) (i : Nat), i < ws.length →
    (extendSchedule n ws).getD i 0#32 = ws.getD i 0#32
  | 0, _, _, _ => rfl
  | n + 1, ws, i, hi => by
    rw [extendSchedule, extendSchedule_getD n _ i (by simp; omega)]
    simp [List.getD, List.getElem?_append_left hi]

/-- `W[t]` below 64 is the register itself. -/
theorem scheduleEntry_of_lt (w : Vector Word 64) (t : Nat) (h : t < 64) : scheduleEntry w t = w[t] := by
  simp [scheduleEntry, List.getD, h]

/-- A digit of a word, as a number. -/
theorem hexDigit_toNat (x : Word) (j : Nat) (hj : j < 8) : (hexDigit x j).toNat = x.toNat / 16 ^ (7 - j) % 16 := by
  have hpow : 2 ^ (28 - 4 * j) = 16 ^ (7 - j) := by
    rw [show (16 : Nat) = 2 ^ 4 by rfl, ← Nat.pow_mul]
    congr 1
    omega
  rw [hexDigit, BitVec.toNat_setWidth, BitVec.toNat_ushiftRight, Nat.shiftRight_eq_div_pow, hpow]

theorem hexval_hexchar : ∀ n : BitVec 4, hexval (hexchar n) = n.toNat := by decide

end Sys2Proof.Machine
end

