-- ==== Sys2Proof/Tests/Slice0.lean ====
section
/-! SUPPORT. Tests of one step each, with expected values from 95_test_vectors.md and 96_test_vectors_rounds.md; ill-formed terms that the
checks refuse; and for each statement with hypotheses a state and operands that meet them. -/

namespace Sys2Proof.Tests

open Sys2Proof Sys2Proof.Machine

/-! ### Helpers -/

/-- The next state of an outcome. -/
def nextState (r : Result) : Option State :=
  match r with
  | .next s => some s
  | .fault _ => none
  | .refused _ => none

/-- A state with the bytes of "hi" loaded as the message (vector P2). -/
def hiState : State := { State.reset with msg := [(0, 0x68#8), (1, 0x69#8)], mlen := 2#64 }

/-- A state in a phase, with `blocks` blocks of zero bytes as the padded message. -/
def inPhase (ph : Phase) (blocks bi t : Nat) : State :=
  { State.reset with
    ph := ph, bi := BitVec.ofNat 56 bi, t := BitVec.ofNat 7 t, plen := BitVec.ofNat 64 (64 * blocks),
    pmsg := Memory.writeBytes [] 0 (List.replicate (64 * blocks) 0x00#8) }

/-- The padded "hi", in a phase. -/
def hiPadded (ph : Phase) : State :=
  { hiState with ph := ph, plen := 64#64, pmsg := Memory.writeBytes [] 0 (pad [0x68#8, 0x69#8]) }

/-- A state with words waiting on the port. -/
def withWord (s : State) (w : CommandWord) : State := { s with port := [.command w] }

/-- The fault that a word takes in a state: the code in `FC`, the word in `FCMD`, the phase `FAULT`, all else as it was. -/
def takes (s : State) (w : CommandWord) (c : FaultCode) : Bool :=
  nextState (step (withWord s w)) = some { s with fc := c, fcmd := w, ph := .fault }

/-! ### Well-formedness: what the checks refuse (30_encoding.md R95, R98) -/

theorem test_wf_opcode_zero : Fields.wf ⟨0x00#8, 0#56⟩ = false := by decide

theorem test_wf_opcode_above_nine : Fields.wf ⟨0x0A#8, 0#56⟩ = false := by decide

theorem test_wf_low_bits_of_format_n : Fields.wf ⟨0x01#8, 1#56⟩ = false ∧ Fields.wf ⟨0x01#8, 0#56⟩ = true := by decide

theorem test_wf_index_of_format_i : Fields.wf ⟨0x04#8, 1#56⟩ = true ∧ Fields.wf ⟨0x06#8, 0x40#56⟩ = true := by decide

theorem test_wf_line_operands : SourceLine.wf ⟨.PAD, some 0⟩ = false ∧ SourceLine.wf ⟨.BLK, none⟩ = false := by decide

theorem test_wf_line_operand_bound :
    SourceLine.wf ⟨.RND, some (2 ^ 56)⟩ = false ∧ SourceLine.wf ⟨.RND, some (2 ^ 56 - 1)⟩ = true := by decide

/-! ### Decoding: words of 95_test_vectors.md section 9 -/

theorem test_decode_pad : decodeTableWord 64 0x0100000000000000 = some .pad := by decide

theorem test_decode_hinit : decodeTableWord 64 0x0200000000000000 = some .hinit := by decide

theorem test_decode_winit : decodeTableWord 64 0x0300000000000000 = some .winit := by decide

theorem test_decode_blk : decodeTableWord 64 0x0400000000000001 = some (.blk 1#56) := by decide

theorem test_decode_blk_all_ones : decodeTableWord 64 0x04FFFFFFFFFFFFFF = some (.blk 72057594037927935#56) := by decide

theorem test_decode_sched : decodeTableWord 64 0x0500000000000000 = some .sched := by decide

theorem test_decode_rnd : decodeTableWord 64 0x060000000000003F = some (.rnd 63#56) := by decide

theorem test_decode_acc : decodeTableWord 64 0x0700000000000000 = some .acc := by decide

theorem test_decode_fmt : decodeTableWord 64 0x0800000000000000 = some .fmt := by decide

theorem test_decode_hash : decodeTableWord 64 0x0900000000000000 = some .hash := by decide

theorem test_decode_illegal :
    [0x0000000000000000, 0x0A00000000000000, 0xFFFFFFFFFFFFFFFF, 0x0100000000000001, 0x0900000000000100,
      0x0000000000000001].map (decodeTableWord 64) = List.replicate 6 none := by decide

/-! ### Pure functions: 95_test_vectors.md sections 2, 3, 6, 7 -/

theorem test_add32_wraps : add32 0xbb67ae85#32 0xdd946d8f#32 = 0x98fc1c14#32 := by decide

theorem test_rotr_shr : rotr 0x12345678#32 4 = 0x81234567#32 ∧ shr 0x12345678#32 3 = 0x02468acf#32 := by decide

theorem test_sigmas : sigma0 0x12345678#32 = 0xe7fce6ee#32 ∧ sigma1 0x12345678#32 = 0xa1f78649#32 := by decide

theorem test_big_sigmas : bigSigma0 0x12345678#32 = 0x66146474#32 ∧ bigSigma1 0x12345678#32 = 0x3561abda#32 := by decide

theorem test_choice_majority :
    choice 0x0000ffff#32 0xaaaa5555#32 0x1234abcd#32 = 0x12345555#32 ∧
    majority 0xf0f0f0f0#32 0xcccccccc#32 0xaaaaaaaa#32 = 0xe8e8e8e8#32 := by decide

/-- Vectors P55 and P56: the boundary of R146. -/
theorem test_pad_boundary : (pad (List.replicate 55 0x61#8)).drop 55 = [0x80#8, 0, 0, 0, 0, 0, 0, 1, 0xb8] ∧
    (pad (List.replicate 56 0x61#8)).length = 128 := by decide +kernel

/-- Vector RC4. -/
theorem test_round_moves : compressionRound #v[1#32, 2#32, 3#32, 4#32, 5#32, 6#32, 7#32, 8#32] 0x10#32 0x20#32 =
    #v[0x54a806c1#32, 1#32, 2#32, 3#32, 0x14a002c2#32, 5#32, 6#32, 7#32] := by decide +kernel

/-- Vector C-A111: two blocks, chained. -/
theorem test_digest_two_blocks : digestWords (List.replicate 111 0x61#8) =
    #v[0x6374f732#32, 0x08854473#32, 0x827f6f6a#32, 0x3f43b1f5#32, 0x3eaa3b82#32, 0xc21c1a6d#32, 0x69a2110b#32,
      0x2a79baad#32] := by decide +kernel

/-! ### One step of each command -/

/-- `PAD` of "hi" (R142's example). -/
theorem test_pad_hi : (nextState (exec .pad hiState)).map (fun t => (t.ph, t.plen, t.pmsg.readBytes 0 4, t.pmsg.read 63)) =
    some (.padded, 64#64, some [0x68#8, 0x69#8, 0x80#8, 0x00#8], some 0x10#8) := by decide +kernel

/-- Vector X3: a second `PAD`. -/
theorem test_pad_twice : takes (inPhase .padded 1 0 0) 0x0100000000000000#64 .badPhase = true := by decide +kernel

/-- `HINIT` (R181's example). -/
theorem test_hinit : (nextState (exec .hinit (inPhase .padded 1 9 0))).map (fun t => (t.ph, t.bi, t.h[0], t.h[7])) =
    some (.ready, 0#56, 0x6a09e667#32, 0x5be0cd19#32) := by decide +kernel

/-- Vector X1. -/
theorem test_hinit_in_idle : takes State.reset 0x0200000000000000#64 .badPhase = true := by decide +kernel

/-- `WINIT` copies the hash state of the previous block, not the table (C-A111). -/
theorem test_winit : (nextState (exec .winit { inPhase .ready 2 1 64 with h := Vector.replicate 8 0xdf5bb81c#32 })).map
    (fun t => (t.ph, t.s[0], t.s[7], t.h[3])) = some (.wset, 0xdf5bb81c#32, 0xdf5bb81c#32, 0xdf5bb81c#32) := by decide +kernel

/-- `BLK 0` of "hi" (R152's example). -/
theorem test_blk_hi : (nextState (exec (.blk 0#56) (hiPadded .wset))).map
    (fun t => (t.ph, t.blkr[0], t.blkr[1], t.blkr[2], t.blkr[63])) =
    some (.loaded, 0x68#8, 0x69#8, 0x80#8, 0x10#8) := by decide +kernel

/-- Vectors X4, X5, X6. -/
theorem test_blk_faults : takes (inPhase .wset 1 0 0) 0x0400000000000001#64 .outOfRange = true ∧
    takes (inPhase .wset 2 0 0) 0x0400000000000001#64 .badIndex = true ∧
    takes (inPhase .ready 1 0 0) 0x04FFFFFFFFFFFFFF#64 .badPhase = true := by decide +kernel

/-- `SCHED` of the empty message's block (vector W-EMPTY). -/
theorem test_sched_empty : (nextState (exec .sched { inPhase .loaded 1 0 9 with blkr := toBlock [0x80#8] })).map
    (fun t => (t.ph, t.t, t.w[0], t.w[18], t.w[22], t.w[63])) =
    some (.rounds, 0#7, 0x80000000#32, 0x00205000#32, 0x05089542#32, 0x3b5ec49b#32) := by decide +kernel

/-- `RND 0` of the empty message (R172's example, line 0 of trace R-EMPTY). -/
theorem test_rnd_zero : (nextState (exec (.rnd 0#56)
    { inPhase .rounds 1 0 0 with s := ivTable, w := schedule (toBlock [0x80#8]) })).map (fun t => (t.t, t.s)) =
    some (1#7, #v[0x7c08884d#32, 0x6a09e667#32, 0xbb67ae85#32, 0x3c6ef372#32, 0x18c7e2a2#32, 0x510e527f#32, 0x9b05688c#32,
      0x1f83d9ab#32]) := by decide +kernel

/-- Vectors X7, X8, X10. -/
theorem test_rnd_faults : takes (inPhase .rounds 1 0 0) 0x0600000000000001#64 .badIndex = true ∧
    takes (inPhase .rounds 1 0 64) 0x0600000000000040#64 .badPhase = true ∧
    takes (inPhase .rounds 1 0 5) 0x0600000000000105#64 .badIndex = true := by decide +kernel

/-- `ACC` of the empty message's block (R183's example: lanes 0 and 1). -/
theorem test_acc : (nextState (exec .acc { inPhase .rounds 1 0 64 with
    h := ivTable, s := #v[0x79a6dddb#32, 0xdd946d8f#32, 0#32, 0#32, 0#32, 0#32, 0#32, 0x1c71eb3c#32] })).map
    (fun t => (t.ph, t.bi, t.h[0], t.h[1], t.h[7])) =
    some (.done, 1#56, 0xe3b0c442#32, 0x98fc1c14#32, 0x7852b855#32) := by decide +kernel

/-- After block 0 of two: `READY`, not `DONE` (program P3); vector X9. -/
theorem test_acc_more_blocks : (nextState (exec .acc (inPhase .rounds 2 0 64))).map (fun t => (t.ph, t.bi)) =
    some (.ready, 1#56) ∧ takes (inPhase .rounds 1 0 63) 0x0700000000000000#64 .badPhase = true := by decide +kernel

/-- `FMT`: word `0x0000000a` keeps its zeros and is lowercase (R201); vector X12. -/
theorem test_fmt : (nextState (exec .fmt { inPhase .done 1 1 64 with
    h := #v[0x0000000a#32, 0xe3b0c442#32, 0#32, 0#32, 0#32, 0#32, 0#32, 0x80000000#32] })).map
    (fun t => (t.ph, t.hex.toList.take 16)) =
    some (.final, [0x30#8, 0x30, 0x30, 0x30, 0x30, 0x30, 0x30, 0x61, 0x65, 0x33, 0x62, 0x30, 0x63, 0x34, 0x34, 0x32]) ∧
    takes (inPhase .final 1 1 64) 0x0800000000000000#64 .badPhase = true := by decide +kernel

/-- `HASH` of the empty message from reset (vector S1, program P1): the digest words and the sequencer's end state. -/
theorem test_hash_empty : (nextState (step (State.reset.withFetchWord 64 0x0900000000000000))).map
    (fun t => (t.h, t.status, t.bi, t.t, t.plen)) =
    some (#v[0xe3b0c442#32, 0x98fc1c14#32, 0x9afbf4c8#32, 0x996fb924#32, 0x27ae41e4#32, 0x649b934c#32, 0xa495991b#32,
      0x7852b855#32], 0x00000307#32, 1#56, 64#7, 64#64) := by decide +kernel

/-- Vectors X2, X11, X13, X14. -/
theorem test_sequencer_faults : takes State.reset 0x0000000000000000#64 .illegalCmd = true ∧
    takes (inPhase .done 1 1 64) 0x0900000000000000#64 .badPhase = true ∧
    takes (inPhase .final 1 1 64) 0x0700000000000001#64 .illegalCmd = true ∧
    nextState (step (withWord { inPhase .fault 1 0 0 with fc := .outOfRange } 0x0000000000000000#64)) =
      some { inPhase .fault 1 0 0 with fc := .outOfRange } := by decide +kernel

/-- A host read of `H[0]` has no result after reset (R51, U2) and gives the first initial word after `HINIT` (R125). -/
theorem test_read_register : hostReadReg (.h 0) State.reset = none ∧
    nextState (step { State.reset with port := [.readReg (.h 0)] }) = some State.reset ∧
    (nextState (exec .hinit (inPhase .padded 1 0 0))).map (fun t => hostReadReg (.h 0) t) =
      some (some 0x6a09e667#64) := by decide +kernel

/-! ### Witnesses: what meets the hypotheses of the statements -/

theorem witness_OpcodeMapAgreesWithDecoder :
    ∀ r ∈ opcodeMap, r.selects r.bits = true := by decide

theorem witness_IllegalWordsFault :
    (withWord State.reset 0#64).port = .command 0#64 :: [] ∧ (withWord State.reset 0#64).ph ≠ .fault ∧
    decode 0#64 = .error (.unassignedOpcode 0#8) ∧ decode 0x0900000000000100#64 = .error (.lowBitsSet 0x09#8 0x100#56) := by
  decide

theorem witness_AssemblerLinesEncode :
    SourceLine.assemble ⟨.BLK, some 1⟩ = some (.blk 1#56) ∧ SourceLine.assemble ⟨.PAD, none⟩ = some .pad ∧
    SourceLine.assemble ⟨.RND, some (2 ^ 56 - 1)⟩ = some (.rnd (BitVec.allOnes 56)) := by decide

theorem witness_WordArithmetic : 1 ≤ 31 ∧ 31 ≤ 31 ∧ 31 < 32 ∧ (rotr 0x80000001#32 31).getLsbD 0 = true := by decide

theorem witness_PadPostconditions : ([0x68#8, 0x69#8] : List Byte).length < 2 ^ 61 ∧
    2 + 1 ≤ 3 ∧ 3 < (pad [0x68#8, 0x69#8]).length - 8 ∧ (pad [0x68#8, 0x69#8])[63]? = some 0x10#8 := by decide +kernel

theorem witness_PadLengthClosedForms :
    (List.replicate 55 0x61#8).length % 64 ≤ 55 ∧ 56 ≤ (List.replicate 56 0x61#8).length % 64 ∧
    (8 * ((List.replicate 55 0x61#8).length + 1 + 0)) % 512 = 448 := by decide

theorem witness_PadBlockBoundaries :
    (List.replicate 55 0x61#8).length = 55 ∧ (List.replicate 56 0x61#8).length = 56 ∧
    (List.replicate 119 0x61#8).length = 119 ∧ (List.replicate 120 0x61#8).length = 120 ∧
    (List.replicate 183 0x61#8).length = 183 := by decide

theorem witness_BlocksCoverPaddedMessage :
    (pad [0x68#8]).length % 64 = 0 ∧ 0 < (pad [0x68#8]).length / 64 ∧ (pad [0x68#8]).length / 64 ≤ 1 := by decide +kernel

theorem witness_ResetEventEffect : ({ inPhase .fault 1 0 0 with port := [.reset] } : State).port = .reset :: [] := rfl

theorem witness_HostAccessEffects :
    (0 < hiState.msgCap.toNat ∧ hiState.msg.read 0 = some 0x68#8) ∧ hiState.msgCap.toNat ≤ 2 ^ 61 ∧
    2 < hiState.msgCap.toNat ∧ hiState.msg.read 2 = none ∧ (hiPadded .padded).pmsg.read 63 = some 0x10#8 ∧
    (hiPadded .padded).pmsg.read 64 = none ∧
    ({ hiState with port := [.readReg (.s 7)] } : State).port = .readReg (.s 7) :: [] := by decide +kernel

/-- A state in which every data register file is written. -/
def allWritten : State := { State.reset with written := ⟨true, true, true, true, true⟩ }

theorem witness_HostReadsRegisters : (31 : Fin 32).val = 4 * (7 : Fin 8).val + (3 : Fin 4).val ∧
    allWritten.written.s = true ∧ allWritten.written.h = true ∧ allWritten.written.w = true ∧ allWritten.written.blkr = true ∧
    allWritten.written.hex = true := by decide

theorem witness_RegisterReadsNeedAWrite : State.reset.written.s = false ∧ State.reset.written.h = false ∧
    State.reset.written.w = false ∧ State.reset.written.blkr = false ∧ State.reset.written.hex = false ∧
    ({ allWritten with port := [.reset, .readReg (.hex 63)] } : State).port = .reset :: .readReg (.hex 63) :: [] := by decide

theorem witness_StepRunsDecodedCommand :
    (withWord State.reset 0x0200000000000000#64).port = .command 0x0200000000000000#64 :: [] ∧
    decode 0x0200000000000000#64 = .ok .hinit ∧ State.reset.port = [] ∧ (inPhase .fault 1 0 0).ph = .fault := by decide

/-- The hypotheses of PadPadsTheMessage, HashComputesTheDigest and, with the port of its statement, HashseqReachesHashState. -/
theorem witness_messages : hiState.ph = .idle ∧ hiState.messageIs [0x68#8, 0x69#8] ∧ State.reset.messageIs [] := by
  refine ⟨rfl, ⟨?_, ?_⟩, ⟨?_, ?_⟩⟩ <;> decide

theorem witness_HashseqReachesHashState :
    ∃ s : State, s.ph = .idle ∧ s.messageIs [0x68#8, 0x69#8] ∧ 1 = (pad [0x68#8, 0x69#8]).length / 64 ∧
      s.port = presentAll (hashSeq 1) ++ [] :=
  ⟨{ hiState with port := presentAll (hashSeq 1) ++ [] }, rfl, witness_messages.2.1, by decide +kernel, rfl⟩

/-- A state in each phase for the statements of the single commands, and a phase that is neither theirs nor `FAULT`. -/
theorem witness_command_phases :
    (inPhase .padded 1 0 0).ph = .padded ∧ (inPhase .ready 1 0 0).ph = .ready ∧ (inPhase .loaded 1 0 0).ph = .loaded ∧
    (inPhase .done 1 1 64).ph = .done ∧ (inPhase .final 1 1 64).ph ≠ .fault ∧ (1#56 : Index) ≠ 0#56 := by decide

theorem witness_BlkLoadsTheBlock :
    (hiPadded .wset).ph = .wset ∧ (0#56 : Index).toNat < (hiPadded .wset).plen.toNat / 64 ∧ 0#56 = (hiPadded .wset).bi ∧
    (hiPadded .wset).pmsg.readBytes (64 * (0#56 : Index).toNat) 64 = some (pad [0x68#8, 0x69#8]) ∧
    (hiPadded .wset).plen.toNat / 64 ≤ (1#56 : Index).toNat ∧
    ((1#56 : Index).toNat < (inPhase .wset 2 0 0).plen.toNat / 64 ∧ 1#56 ≠ (inPhase .wset 2 0 0).bi) ∧
    Memory.readBytes [] (64 * (0#56 : Index).toNat) 64 = none := by decide +kernel

theorem witness_RndAppliesOneRound :
    (inPhase .rounds 1 0 63).ph = .rounds ∧ (inPhase .rounds 1 0 63).t.toNat < 64 ∧
    (63#56 : Index).toNat = (inPhase .rounds 1 0 63).t.toNat ∧ (64#56 : Index).toNat ≠ (inPhase .rounds 1 0 63).t.toNat ∧
    (inPhase .rounds 1 0 64).t.toNat = 64 := by decide

theorem witness_AccAddsEightLanes :
    (inPhase .rounds 2 1 64).ph = .rounds ∧ (inPhase .rounds 2 1 64).t.toNat = 64 ∧ (inPhase .rounds 2 1 63).t.toNat < 64 := by
  decide

theorem witness_OverlongMessageRefused :
    ({ State.reset with msgCap := 1#61, mlen := 2#64 } : State).ph = .idle ∧
    ({ State.reset with msgCap := 1#61, mlen := 2#64 } : State).msgCap.toNat < (2#64 : BitVec 64).toNat := by decide

theorem witness_UnwrittenMessageStops :
    ({ hiState with mlen := 3#64 } : State).ph = .idle ∧ (3#64 : BitVec 64).toNat ≤ hiState.msgCap.toNat ∧
    hiState.msg.readBytes 0 (3#64 : BitVec 64).toNat = none := by decide

theorem witness_PadFrame : (nextState (exec .pad hiState)).isSome = true ∧
    (nextState (exec .pad (inPhase .ready 1 0 0))).isSome = true ∧
    hiState.msg.readBytes 0 hiState.mlen.toNat = some [0x68#8, 0x69#8] := by decide +kernel

theorem witness_RegisterCommandsFrame : Instr.winit ≠ .pad ∧ Instr.winit ≠ .hash ∧
    (nextState (exec .winit (inPhase .ready 1 0 0))).isSome = true := by decide +kernel

theorem witness_WrongPhaseFaults : State.reset.ph ≠ .fault ∧ ¬ State.reset.allows .hinit ∧
    ¬ (inPhase .rounds 1 0 64).allows (.rnd 64#56) ∧ ¬ (inPhase .rounds 1 0 63).allows .acc := by
  refine ⟨by decide, ?_, ?_, ?_⟩ <;> (unfold State.allows; decide)

theorem witness_FaultPriority :
    (inPhase .wset 2 0 0).ph ≠ .fault ∧ decode 0x0400000000000001#64 = .ok (.blk 1#56) ∧
    (inPhase .wset 2 0 0).allows (.blk 1#56) ∧ (1#56 : Index).toNat < (inPhase .wset 2 0 0).nblk ∧
    1#56 ≠ (inPhase .wset 2 0 0).bi ∧ (inPhase .wset 1 0 0).nblk ≤ (1#56 : Index).toNat ∧
    (inPhase .rounds 1 0 5).allows (.rnd 0x105#56) ∧ (0x105#56 : Index).toNat ≠ (inPhase .rounds 1 0 5).t.toNat := by
  refine ⟨by decide, by decide, rfl, by decide, by decide, by decide, ⟨rfl, by decide⟩, by decide⟩

theorem witness_FaultsArePrecise :
    (withWord (inPhase .wset 1 0 0) 0x0400000000000001#64).ph ≠ .fault ∧
    (nextState (step (withWord (inPhase .wset 1 0 0) 0x0400000000000001#64))).map (·.ph) = some .fault := by decide +kernel

theorem witness_FaultIsSticky :
    ∃ s t : State, s.ph = .fault ∧ s.port = .command 0#64 :: [] ∧ step s = .next t ∧ ∀ rest, s.port ≠ .reset :: rest :=
  ⟨withWord (inPhase .fault 1 0 0) 0#64, inPhase .fault 1 0 0, rfl, rfl, rfl, by intro rest h; cases h⟩

theorem witness_FinalIsTerminal :
    ∃ s t : State, s.ph = .final ∧ s.port = .command 0x0800000000000000#64 :: [] ∧ step s = .next t ∧
      ∀ rest, s.port ≠ .reset :: rest :=
  ⟨withWord (inPhase .final 1 1 64) 0x0800000000000000#64, _, rfl, rfl, rfl, by intro rest h; cases h⟩

/-- `SeqInv` holds in a phase that no fault has touched, with a padded message and a block in work. -/
theorem witness_SeqInv : (hiPadded .wset).SeqInv ∧ (inPhase .rounds 2 1 64).SeqInv ∧ (inPhase .done 1 1 64).SeqInv :=
  ⟨by decide +kernel, by decide +kernel, by decide +kernel⟩

theorem witness_StepsFollowTransitionTable :
    (withWord (inPhase .rounds 2 1 64) 0x0700000000000000#64).SeqInv ∧
    (nextState (step (withWord (inPhase .rounds 2 1 64) 0x0700000000000000#64))).map (·.ph) = some .done := by decide +kernel

/-- Also the premises of MessageWritesAfterPadAreHarmless. -/
theorem witness_MemoriesAreImmutable :
    ∃ s t : State, s.ph ≠ .idle ∧ s.port = .command 0x0200000000000000#64 :: [] ∧ step s = .next t ∧
      ∀ rest, s.port ≠ .reset :: rest :=
  ⟨withWord (inPhase .padded 1 0 0) 0x0200000000000000#64, _, by decide, rfl, rfl, by intro rest h; cases h⟩

/-- The two clauses of MemoriesAreImmutable about `IDLE`: `PAD` there, an access after which the phase is still `IDLE`, and a fault. -/
theorem witness_MemoriesAreImmutable_idle :
    hiState.ph = .idle ∧ (nextState (step (withWord hiState 0x0100000000000000#64))).map (·.ph) = some .padded ∧
    (nextState (step { hiState with port := [.writeMlen 1#64] })).map (·.ph) = some .idle ∧
    (nextState (step (withWord hiState 0#64))).map (·.ph) = some .fault := by decide +kernel

theorem witness_ControlIgnoresData :
    ({ hiState with h := ivTable, msg := [(0, 0x68#8), (1, 0x68#8)] } : State).eraseData = hiState.eraseData ∧
    ({ hiState with h := ivTable, msg := [(0, 0x68#8), (1, 0x68#8)] } : State) ≠ hiState := by decide +kernel

theorem witness_BlocksChainInOrder :
    (inPhase .wset 1 0 0).ph = .wset ∧ decode 0x0400000000000000#64 ≠ .ok .acc ∧
    (nextState (step (withWord (inPhase .wset 1 0 0) 0x0400000000000000#64))).isSome = true ∧
    (nextState (step (withWord (inPhase .padded 1 0 0) 0x0200000000000000#64))).map (·.ph) = some .ready ∧
    (nextState (step (withWord (inPhase .rounds 2 0 64) 0x0700000000000000#64))).map (·.ph) = some .ready := by decide +kernel

theorem witness_EveryStepKeepsWrittenRegisters :
    { inPhase .rounds 2 1 64 with written := ⟨true, true, true, true, false⟩ : State }.writtenRules ∧
    { inPhase .final 1 1 64 with written := ⟨true, true, true, true, true⟩ : State }.writtenRules ∧
    { inPhase .ready 1 0 0 with written := ⟨false, true, false, false, false⟩ : State }.writtenRules ∧
    { inPhase .loaded 1 0 0 with written := ⟨true, true, false, true, false⟩ : State }.writtenRules ∧
    { inPhase .done 1 1 64 with written := ⟨true, true, true, true, false⟩ : State }.writtenRules :=
  ⟨by decide, by decide, by decide, by decide, by decide⟩

/-- The three invariants together where a padded message is held: after `HINIT` on the padded "hi". -/
theorem witness_invariants : ({ hiPadded .ready with h := ivTable } : State).SeqInv ∧
    ({ hiPadded .ready with h := ivTable } : State).dataRules ∧
    ({ hiPadded .ready with h := ivTable } : State).paddedFromMessage ∧
    (nextState (step { hiPadded .ready with h := ivTable, port := [.command 0x0300000000000000#64] })).isSome = true := by
  refine ⟨by decide +kernel, by decide +kernel, fun _ => ⟨[0x68#8, 0x69#8], by decide, by decide +kernel⟩, by decide +kernel⟩

/-- The end state of `HASH` on the empty message, as far as the data rules read it. -/
def finalState : State :=
  { State.reset with
    ph := .final, bi := 1#56, t := 64#7, plen := 64#64, pmsg := Memory.writeBytes [] 0 (pad []),
    h := digestWords [], hex := digest [] }

theorem witness_final_state : finalState.dataRules ∧ finalState.paddedFromMessage ∧ finalState.ph = .final :=
  ⟨by decide +kernel, fun _ => ⟨[], by decide, by decide +kernel⟩, rfl⟩

theorem witness_StepStopsOnlyWhereTheSpecDoes :
    State.reset.SeqInv ∧
    nextState (step { State.reset with port := [.readByte .msg 0] }) = none ∧
    nextState (step { State.reset with port := [.writeMsg (2 ^ 61) 0#8] }) = none ∧
    nextState (step { State.reset with mlen := 1#64, port := [.command 0x0100000000000000#64] }) = none := by decide +kernel

end Sys2Proof.Tests
end

section
/-! What a command and a step can answer, said once: `exec_cases` and `step_cases`. An invariant is then a property that these cases
keep (`KeptByStep`); `HASH` needs no case of its own, because its effect is a chain of the other commands (45_compressor.md R191). -/

namespace Sys2Proof.Machine

/-! ### One command -/

/-- Every next state of a command, `HASH` in `IDLE` apart: the discarded word (R217), the three faults (R212, R153, R154, R174) and
the effect of each command where it is legal (R186). -/
inductive CommandCase (s : State) : Instr → State → Prop where
  | discarded (i : Instr) : s.ph = .fault → CommandCase s i s
  | badPhase (i : Instr) : s.ph ≠ .fault → ¬ s.allows i → CommandCase s i (s.faulted .badPhase (encode i))
  | pad (m : List Byte) : s.ph = .idle → s.messageIs m → CommandCase s .pad { s with
      pmsg := s.pmsg.writeBytes 0 (pad m), plen := BitVec.ofNat 64 (pad m).length, ph := .padded }
  | hinit : s.ph = .padded → CommandCase s .hinit { s with
      h := ivTable, bi := 0#56, ph := .ready, written := { s.written with h := true } }
  | winit : s.ph = .ready → CommandCase s .winit { s with
      s := s.h, ph := .wset, written := { s.written with s := true } }
  | blkOutOfRange (idx : Index) : s.ph = .wset → s.nblk ≤ idx.toNat →
      CommandCase s (.blk idx) (s.faulted .outOfRange (encode (.blk idx)))
  | blkBadIndex (idx : Index) : s.ph = .wset → idx.toNat < s.nblk → idx ≠ s.bi →
      CommandCase s (.blk idx) (s.faulted .badIndex (encode (.blk idx)))
  | blk (bs : List Byte) : s.ph = .wset → s.bi.toNat < s.nblk → s.pmsg.readBytes (64 * s.bi.toNat) 64 = some bs →
      CommandCase s (.blk s.bi) { s with
        blkr := toBlock bs, ph := .loaded, written := { s.written with blkr := true } }
  | sched : s.ph = .loaded → CommandCase s .sched { s with
      w := schedule s.blkr, t := 0#7, ph := .rounds, written := { s.written with w := true } }
  | rndBadIndex (idx : Index) : s.ph = .rounds → s.t.toNat < 64 → idx ≠ s.t.setWidth 56 →
      CommandCase s (.rnd idx) (s.faulted .badIndex (encode (.rnd idx)))
  | rnd : s.ph = .rounds → s.t.toNat < 64 → CommandCase s (.rnd (s.t.setWidth 56)) { s with
      s := compressionRound s.s (scheduleEntry s.w s.t.toNat) (roundConstant s.t.toNat), t := s.t + 1#7,
      written := { s.written with s := true } }
  | acc : s.ph = .rounds → s.t.toNat = 64 → CommandCase s .acc { s with
      h := addLanes s.h s.s, bi := s.bi + 1#56, ph := phaseAfterAcc s, written := { s.written with h := true } }
  | fmt : s.ph = .done → CommandCase s .fmt { s with
      hex := fmt s.h, ph := .final, written := { s.written with hex := true } }

/-- The phase test adds two cases to those of the effect behind it. -/
theorem commandCase_of_whenLegal {i : Instr} {legal : Bool} {effect : State → Result} {s t : State}
    (hlegal : legal = true ↔ s.allows i) (heffect : s.allows i → effect s = .next t → CommandCase s i t)
    (h : whenLegal i legal effect s = .next t) : CommandCase s i t := by
  obtain ⟨hf, rfl⟩ | ⟨-, hb, he⟩ | ⟨hf, hb, rfl⟩ := whenLegal_next h
  · exact .discarded i hf
  · exact heffect (hlegal.1 hb) he
  · exact .badPhase i hf (by simp [← hlegal, hb])

theorem commandCase_of_blkEffect {idx : Index} {s t : State} (hph : s.ph = .wset) (h : blkEffect idx s = .next t) :
    CommandCase s (.blk idx) t := by
  obtain ⟨hr, rfl⟩ | ⟨hr, hi, rfl⟩ | ⟨hr, rfl, bs, hbs, rfl⟩ := blkEffect_next h
  · exact .blkOutOfRange idx hph hr
  · exact .blkBadIndex idx hph hr hi
  · exact .blk bs hph hr hbs

theorem commandCase_of_rndEffect {idx : Index} {s t : State} (hph : s.ph = .rounds) (hT : s.t.toNat < 64)
    (h : rndEffect idx s = .next t) : CommandCase s (.rnd idx) t := by
  obtain ⟨hi, rfl⟩ | ⟨rfl, rfl⟩ := rndEffect_next h
  · exact .rndBadIndex idx hph hT hi
  · exact .rnd hph hT

/-- What any command but `HASH` can answer with a next state. -/
theorem commandCase_of_exec {i : Instr} {s t : State} (hi : i ≠ .hash) (h : exec i s = .next t) : CommandCase s i t := by
  cases i with
  | pad =>
    refine commandCase_of_whenLegal (by simp [State.allows]) (fun hph he => ?_) h
    obtain ⟨m, hm, rfl⟩ := padEffect_next he
    exact .pad m hph hm
  | hinit => exact commandCase_of_whenLegal (by simp [State.allows]) (fun hph he => by cases he; exact .hinit hph) h
  | winit => exact commandCase_of_whenLegal (by simp [State.allows]) (fun hph he => by cases he; exact .winit hph) h
  | blk idx => exact commandCase_of_whenLegal (by simp [State.allows]) commandCase_of_blkEffect h
  | sched => exact commandCase_of_whenLegal (by simp [State.allows]) (fun hph he => by cases he; exact .sched hph) h
  | rnd idx => exact commandCase_of_whenLegal (by simp [State.allows]) (fun ha => commandCase_of_rndEffect ha.1 ha.2) h
  | acc => exact commandCase_of_whenLegal (by simp [State.allows]) (fun ha he => by cases he; exact .acc ha.1 ha.2) h
  | fmt => exact commandCase_of_whenLegal (by simp [State.allows]) (fun hph he => by cases he; exact .fmt hph) h
  | hash => exact absurd rfl hi

/-! ### `HASH` as a chain of commands -/

/-- One of the cases, of whatever command. -/
def CommandStep (s t : State) : Prop := ∃ i, CommandCase s i t

/-- `t` is reached from `s` by commands that each answer a next state. -/
abbrev CommandChain : State → State → Prop := Relation.ReflTransGen CommandStep

theorem commandChain_of_exec_ne_hash {i : Instr} {s t : State} (hi : i ≠ .hash) (h : exec i s = .next t) : CommandChain s t :=
  .single ⟨i, commandCase_of_exec hi h⟩

theorem commandChain_of_runRounds : ∀ {n : Nat} {s t : State}, runRounds n s = .next t → CommandChain s t
  | 0, _, _, h => by cases h; exact .refl
  | n + 1, s, t, h => by
    obtain ⟨u, hu, ht⟩ := andThen_eq_next h
    exact (commandChain_of_runRounds hu).trans (commandChain_of_exec_ne_hash (i := .rnd (BitVec.ofNat 56 n)) (by simp) ht)

theorem commandChain_of_runBlock {i : Nat} {s t : State} (h : runBlock i s = .next t) : CommandChain s t := by
  obtain ⟨u4, h4, hacc⟩ := andThen_eq_next h
  obtain ⟨u3, h3, hrounds⟩ := andThen_eq_next h4
  obtain ⟨u2, h2, hsched⟩ := andThen_eq_next h3
  obtain ⟨u1, hwinit, hblk⟩ := andThen_eq_next h2
  calc
    CommandChain s u1 := commandChain_of_exec_ne_hash (i := .winit) (by simp) hwinit
    CommandChain _ u2 := commandChain_of_exec_ne_hash (i := .blk (BitVec.ofNat 56 i)) (by simp) hblk
    CommandChain _ u3 := commandChain_of_exec_ne_hash (i := .sched) (by simp) hsched
    CommandChain _ u4 := commandChain_of_runRounds hrounds
    CommandChain _ t := commandChain_of_exec_ne_hash (i := .acc) (by simp) hacc

theorem commandChain_of_runBlocks : ∀ {n : Nat} {s t : State}, runBlocks n s = .next t → CommandChain s t
  | 0, _, _, h => by cases h; exact .refl
  | n + 1, s, t, h => by
    obtain ⟨u, hu, ht⟩ := andThen_eq_next h
    exact (commandChain_of_runBlocks hu).trans (commandChain_of_runBlock ht)

theorem commandChain_of_hashEffect {s t : State} (h : hashEffect s = .next t) : CommandChain s t := by
  obtain ⟨u3, h3, hfmt⟩ := andThen_eq_next h
  obtain ⟨u2, h2, hblocks⟩ := andThen_eq_next h3
  obtain ⟨u1, hpad, hhinit⟩ := andThen_eq_next h2
  calc
    CommandChain s u1 := commandChain_of_exec_ne_hash (i := .pad) (by simp) hpad
    CommandChain _ u2 := commandChain_of_exec_ne_hash (i := .hinit) (by simp) hhinit
    CommandChain _ u3 := commandChain_of_runBlocks hblocks
    CommandChain _ t := commandChain_of_exec_ne_hash (i := .fmt) (by simp) hfmt

/-- What any command can answer with a next state: one of the cases, or the effect of `HASH` in `IDLE`. -/
theorem exec_cases {i : Instr} {s t : State} (h : exec i s = .next t) :
    CommandCase s i t ∨ (i = .hash ∧ s.ph = .idle ∧ hashEffect s = .next t) := by
  by_cases hi : i = .hash
  · subst hi
    obtain ⟨hf, rfl⟩ | ⟨-, hb, he⟩ | ⟨hf, hb, rfl⟩ := whenLegal_next h
    · exact .inl (.discarded .hash hf)
    · exact .inr ⟨rfl, by simpa using hb, he⟩
    · exact .inl (.badPhase .hash hf (by simpa [State.allows] using hb))
  · exact .inl (commandCase_of_exec hi h)

theorem commandChain_of_exec {i : Instr} {s t : State} (h : exec i s = .next t) : CommandChain s t := by
  obtain hc | ⟨-, -, he⟩ := exec_cases h
  · exact .single ⟨i, hc⟩
  · exact commandChain_of_hashEffect he

/-! ### One step -/

/-- Every next state of a step, one case for each thing the host can have asked for (R75, R229, R245). -/
inductive StepCase (s t : State) : Prop where
  | waits : s.port = [] → t = s → StepCase s t
  | discards (w : CommandWord) (rest : List HostAction) : s.port = .command w :: rest → s.ph = .fault →
      t = s.setPort rest → StepCase s t
  | illegal (w : CommandWord) (rest : List HostAction) (e : IllegalWord) : s.port = .command w :: rest → s.ph ≠ .fault →
      decode w = .error e → t = (s.setPort rest).faulted .illegalCmd w → StepCase s t
  | executes (w : CommandWord) (rest : List HostAction) (i : Instr) : s.port = .command w :: rest → s.ph ≠ .fault →
      decode w = .ok i → exec i (s.setPort rest) = .next t → StepCase s t
  | resets (rest : List HostAction) : s.port = .reset :: rest → t = applyReset (s.setPort rest) → StepCase s t
  | writesMsg (a : Nat) (b : Byte) (rest : List HostAction) : s.port = .writeMsg a b :: rest → a < s.msgCap.toNat →
      t = (s.setPort rest).setMsg (s.msg.write a b) → StepCase s t
  | writesMlen (v : BitVec 64) (rest : List HostAction) : s.port = .writeMlen v :: rest →
      t = (s.setPort rest).setMlen v → StepCase s t
  | readsByte (space : Space) (a : Nat) (rest : List HostAction) : s.port = .readByte space a :: rest →
      t = s.setPort rest → StepCase s t
  | readsReg (r : HostReg) (rest : List HostAction) : s.port = .readReg r :: rest → t = s.setPort rest → StepCase s t

theorem step_of_port_nil {s : State} (h : s.port = []) : step s = .next s := by
  simp only [step, serveNext, h]

theorem step_of_port_cons {s : State} {a : HostAction} {rest : List HostAction} (h : s.port = a :: rest) :
    step s = serveAction a (s.setPort rest) := by
  simp only [step, serveNext, h]

theorem acceptWord_of_fault {w : CommandWord} {s : State} (hf : s.ph = .fault) : acceptWord w s = .next s := if_pos hf

theorem acceptWord_of_error {w : CommandWord} {s : State} {e : IllegalWord} (hf : s.ph ≠ .fault) (he : decode w = .error e) :
    acceptWord w s = .next (takeFault .illegalCmd w s) := by
  rw [acceptWord, if_neg hf, he]

theorem acceptWord_of_ok {w : CommandWord} {s : State} {i : Instr} (hf : s.ph ≠ .fault) (hi : decode w = .ok i) :
    acceptWord w s = exec i s := by
  rw [acceptWord, if_neg hf, hi]

theorem acceptWord_next {w : CommandWord} {s t : State} (h : acceptWord w s = .next t) :
    (s.ph = .fault ∧ t = s) ∨ (s.ph ≠ .fault ∧ ∃ e, decode w = .error e ∧ t = s.faulted .illegalCmd w) ∨
      (s.ph ≠ .fault ∧ ∃ i, decode w = .ok i ∧ exec i s = .next t) := by
  by_cases hf : s.ph = .fault
  · rw [acceptWord_of_fault hf] at h
    cases h
    exact .inl ⟨hf, rfl⟩
  · cases hdec : decode w with
    | error e =>
      rw [acceptWord_of_error hf hdec] at h
      cases h
      exact .inr (.inl ⟨hf, e, rfl, rfl⟩)
    | ok i =>
      rw [acceptWord_of_ok hf hdec] at h
      exact .inr (.inr ⟨hf, i, rfl, h⟩)

theorem hostWriteMsg_next {a : Nat} {b : Byte} {s t : State} (h : hostWriteMsg a b s = .next t) :
    a < s.msgCap.toNat ∧ t = s.setMsg (s.msg.write a b) := by
  unfold hostWriteMsg at h
  split at h
  · rename_i ha
    cases h
    exact ⟨ha, rfl⟩
  · cases h

theorem serveRead_next {space : Space} {a : Nat} {s t : State} (h : serveRead space a s = .next t) : t = s := by
  unfold serveRead at h
  split at h <;> cases h
  rfl

theorem step_cases {s t : State} (h : step s = .next t) : StepCase s t := by
  cases hport : s.port with
  | nil =>
    rw [step_of_port_nil hport] at h
    cases h
    exact .waits hport rfl
  | cons a rest =>
    rw [step_of_port_cons hport] at h
    cases a with
    | command w =>
      obtain ⟨hf, ht⟩ | ⟨hf, e, he, ht⟩ | ⟨hf, i, hi, ht⟩ := acceptWord_next h
      · exact .discards w rest hport hf ht
      · exact .illegal w rest e hport hf he ht
      · exact .executes w rest i hport hf hi ht
    | reset => cases h; exact .resets rest hport rfl
    | writeMsg a b => exact .writesMsg a b rest hport (hostWriteMsg_next h).1 (hostWriteMsg_next h).2
    | writeMlen v => cases h; exact .writesMlen v rest hport rfl
    | readByte space a => exact .readsByte space a rest hport (serveRead_next h)
    | readReg r => cases h; exact .readsReg r rest hport rfl

/-! ### Invariants -/

/-- `P` is kept by each thing that a step is made of. -/
structure KeptByStep (P : State → Prop) : Prop where
  /-- Taking an action off the queue. -/
  port : ∀ {s : State} (rest : List HostAction), P s → P (s.setPort rest)
  command : ∀ {s t : State} {i : Instr}, P s → CommandCase s i t → P t
  illegal : ∀ {s : State} (w : CommandWord), P s → P (s.faulted .illegalCmd w)
  reset : ∀ {s : State}, P s → P (applyReset s)
  writeMsg : ∀ {s : State} {a : Nat} (b : Byte), P s → a < s.msgCap.toNat → P (s.setMsg (s.msg.write a b))
  writeMlen : ∀ {s : State} (v : BitVec 64), P s → P (s.setMlen v)

namespace KeptByStep

variable {P : State → Prop} (hP : KeptByStep P)
include hP

theorem commandChain {s t : State} (hs : P s) (h : CommandChain s t) : P t := by
  induction h with
  | refl => exact hs
  | tail _ hc ih =>
    obtain ⟨i, hc⟩ := hc
    exact hP.command ih hc

/-- A property that each part of a step keeps is kept by every step. -/
theorem step {s t : State} (hs : P s) (h : step s = .next t) : P t := by
  cases step_cases h with
  | waits _ ht => exact ht ▸ hs
  | discards w rest _ _ ht => exact ht ▸ hP.port rest hs
  | illegal w rest e _ _ _ ht => exact ht ▸ hP.illegal w (hP.port rest hs)
  | executes w rest i _ _ _ he => exact hP.commandChain (hP.port rest hs) (commandChain_of_exec he)
  | resets rest _ ht => exact ht ▸ hP.reset (hP.port rest hs)
  | writesMsg a b rest _ ha ht => exact ht ▸ hP.writeMsg b (hP.port rest hs) ha
  | writesMlen v rest _ ht => exact ht ▸ hP.writeMlen v (hP.port rest hs)
  | readsByte space a rest _ ht => exact ht ▸ hP.port rest hs
  | readsReg r rest _ ht => exact ht ▸ hP.port rest hs

end KeptByStep

end Sys2Proof.Machine
end

section
/-! Reset, `STATUS` and the host's reads of registers (10_state.md R26, R40, R41, R50, R51). -/

namespace Sys2Proof.Machine

/-! ### `STATUS` -/

/-- `STATUS` bit by bit (R40). -/
theorem status_getLsbD (s : State) (i : Nat) : s.status.getLsbD i =
    if i < 4 then s.ph.code.getLsbD i else if i < 8 then s.fc.code.getLsbD (i - 4) else
      if i = 8 then s.hashValid else if i = 9 then s.doneOut else if i = 10 then s.faultOut else false := by
  refine BitVec.getLsbD_append.trans ?_
  simp only [BitVec.getLsbD_append, BitVec.getLsbD_ofBool, BitVec.getLsbD_zero]
  grind

/-! ### Host reads of registers -/

theorem hostReadReg_of_hasValue {r : HostReg} {s : State} (h : s.regHasValue r = true) :
    hostReadReg r s = some (regContents r s) := by simp [hostReadReg, h]

theorem hostReadReg_of_not_hasValue {r : HostReg} {s : State} (h : s.regHasValue r = false) :
    hostReadReg r s = none := by simp [hostReadReg, h]

/-- A register of at most 64 bits reads as its number. -/
theorem exists_hostReadReg_of_setWidth {r : HostReg} {s : State} {n : Nat} {x : BitVec n} (hr : s.regHasValue r = true)
    (hx : regContents r s = x.setWidth 64) (hn : n ≤ 64 := by decide) :
    ∃ v, hostReadReg r s = some v ∧ v.toNat = x.toNat :=
  ⟨_, hostReadReg_of_hasValue hr, hx ▸ BitVec.toNat_setWidth_of_le hn⟩

/-- An output reads as 0 or 1. -/
theorem exists_hostReadReg_of_bool {r : HostReg} {s : State} {b : Bool} (hr : s.regHasValue r = true)
    (hb : regContents r s = (BitVec.ofBool b).setWidth 64) : ∃ v, hostReadReg r s = some v ∧ v.toNat = b.toNat := by
  simpa only [BitVec.toNat_ofBool] using exists_hostReadReg_of_setWidth hr hb

/-- Byte `j` of a word, the most significant first, is a base 256 digit (R26). -/
theorem digestBytes_toNat (h : Vector Word 8) (i : Fin 8) (j : Fin 4) (k : Fin 32) (hk : k.val = 4 * i.val + j.val) :
    ((digestBytes h)[k]).toNat = h[i].toNat / 256 ^ (3 - j.val) % 256 := by
  have hdiv : k.val / 4 = i.val := by omega
  have hmod : k.val % 4 = j.val := by omega
  have hpow : 2 ^ (24 - 8 * j.val) = 256 ^ (3 - j.val) := by
    rw [show (256 : Nat) = 2 ^ 8 by rfl, ← Nat.pow_mul]
    congr 1
    omega
  rw [Fin.getElem_fin, digestBytes_getElem _ _ k.isLt]
  simp only [hdiv, hmod, BitVec.toNat_setWidth, BitVec.toNat_ushiftRight, Nat.shiftRight_eq_div_pow, hpow, Fin.getElem_fin]

/-- Which registers the written files decide about: every element of the five files and every digest byte. -/
theorem regHasValue_of_written_none {r : HostReg} {s : State} (h : s.written = .none)
    (hr : (∃ i, r = .s i ∨ r = .h i) ∨ (∃ i, r = .w i ∨ r = .blkr i ∨ r = .hex i) ∨ ∃ i, r = .digestByte i) :
    s.regHasValue r = false := by
  obtain ⟨i, rfl | rfl⟩ | ⟨i, rfl | rfl | rfl⟩ | ⟨i, rfl⟩ := hr <;> simp [State.regHasValue, h, WrittenFiles.none]

/-! ### The obligations -/

/-- Settles O20: State.reset lists these values. -/
theorem resetStateValues : Obligations.ResetStateValues := by
  unfold Obligations.ResetStateValues
  have hpmsg : ∀ a, State.reset.pmsg.read a = none := fun _ => rfl
  refine ⟨rfl, rfl, rfl, rfl, rfl, rfl, rfl, rfl, rfl, rfl, rfl, hpmsg, rfl, rfl⟩

/-- Settles O22: each field is read off `status_getLsbD`. -/
theorem statusFields : Obligations.StatusFields := by
  unfold Obligations.StatusFields
  refine ⟨fun s => ⟨?_, ?_, ?_, ?_, ?_, fun i hi => ?_⟩, by decide, by decide, by decide⟩
  · apply BitVec.eq_of_getLsbD_eq
    intro i hi
    simp [status_getLsbD, hi]
  · apply BitVec.eq_of_getLsbD_eq
    intro i hi
    have hi8 : 4 + i < 8 := by omega
    simp [status_getLsbD, hi, hi8]
  · rw [status_getLsbD]
    simp [State.hashValid]
  · exact status_getLsbD s 9
  · exact status_getLsbD s 10
  · have hne : ¬ i < 4 ∧ ¬ i < 8 ∧ i ≠ 8 ∧ i ≠ 9 ∧ i ≠ 10 := by omega
    simp [status_getLsbD, hne]

/-- Settles O24: each read has a value by `State.regHasValue`, and widening with zeros keeps the number. -/
theorem hostReadsRegisters : Obligations.HostReadsRegisters := by
  unfold Obligations.HostReadsRegisters
  intro s
  have hdigest : ∀ (i : Fin 8) (j : Fin 4) (k : Fin 32), k.val = 4 * i.val + j.val →
      (regContents (.digestByte k) s).toNat = s.h[i].toNat / 256 ^ (3 - j.val) % 256 := fun i j k hk =>
    (BitVec.toNat_setWidth_of_le (by decide)).trans (digestBytes_toNat s.h i j k hk)
  exact ⟨fun hw _ => exists_hostReadReg_of_setWidth hw rfl, fun hw _ => exists_hostReadReg_of_setWidth hw rfl,
    fun hw _ => exists_hostReadReg_of_setWidth hw rfl, fun hw _ => exists_hostReadReg_of_setWidth hw rfl,
    fun hw _ => exists_hostReadReg_of_setWidth hw rfl, fun hw i j k hk => ⟨_, hostReadReg_of_hasValue hw, hdigest i j k hk⟩,
    exists_hostReadReg_of_setWidth rfl rfl, exists_hostReadReg_of_setWidth rfl rfl, exists_hostReadReg_of_setWidth rfl rfl,
    rfl, rfl, rfl, exists_hostReadReg_of_setWidth rfl rfl, exists_hostReadReg_of_setWidth rfl rfl,
    exists_hostReadReg_of_bool rfl rfl, exists_hostReadReg_of_bool rfl rfl, exists_hostReadReg_of_bool rfl rfl⟩

/-- Settles O25: a data register has a result only through its written flag, and reset clears the five flags. -/
theorem registerReadsNeedAWrite : Obligations.RegisterReadsNeedAWrite := by
  unfold Obligations.RegisterReadsNeedAWrite
  refine ⟨fun s => ?_, fun r hr => ⟨?_, fun s rest hport => ?_⟩⟩
  · exact ⟨fun h i => hostReadReg_of_not_hasValue h, fun h i => hostReadReg_of_not_hasValue h,
      fun h i => hostReadReg_of_not_hasValue h, fun h i => hostReadReg_of_not_hasValue h,
      fun h i => hostReadReg_of_not_hasValue h, fun h i => hostReadReg_of_not_hasValue h⟩
  · exact hostReadReg_of_not_hasValue (regHasValue_of_written_none rfl hr)
  · refine ⟨applyReset (s.setPort (.readReg r :: rest)), step_of_port_cons hport, ?_, rfl⟩
    exact hostReadReg_of_not_hasValue (regHasValue_of_written_none rfl hr)

/-- Settles O51: in `IDLE` with nothing padded only the rules about `T`, `FC` and the memories say anything. -/
theorem invariantsAtReset : Obligations.InvariantsAtReset := by
  unfold Obligations.InvariantsAtReset
  have hseq : State.reset.SeqInv := by decide +kernel
  have hwritten : State.reset.writtenRules := by decide
  have hdata : State.reset.dataRules := by decide +kernel
  have hpadded : State.reset.paddedFromMessage := fun hheld => absurd rfl hheld.1
  exact ⟨hseq, hwritten, hdata, hpadded⟩

end Sys2Proof.Machine
end

section
/-! What the commands that store nothing to memory leave unchanged, and where `PAD` and `HASH` stop (10_state.md R27, R51). -/

namespace Sys2Proof.Machine

@[simp] theorem andThen_fault (e : Fault) (f : State → Result) : andThen (.fault e) f = .fault e := rfl

@[simp] theorem andThen_refused (e : Refusal) (f : State → Result) : andThen (.refused e) f = .refused e := rfl

/-- `PAD` reads a message that is in range but not wholly written. -/
theorem padEffect_of_unwritten {s : State} (hcap : s.mlen.toNat ≤ s.msgCap.toNat)
    (hread : s.msg.readBytes 0 s.mlen.toNat = none) :
    padEffect s = .fault (.unwrittenRead .msg (s.msg.firstUnwritten 0 s.mlen.toNat)) := by
  rw [padEffect, if_neg (Nat.not_lt.2 hcap), hread]

/-- In `IDLE` the command is its effect. -/
theorem exec_pad_of_idle {s : State} (h : s.ph = .idle) : exec .pad s = padEffect s :=
  whenLegal_of_legal (by simp [h]) (by simp [h])

theorem exec_hash_of_idle {s : State} (h : s.ph = .idle) : exec .hash s = hashEffect s :=
  whenLegal_of_legal (by simp [h]) (by simp [h])

/-- `HASH` begins with `PAD`. -/
theorem hashEffect_of_idle {s : State} (h : s.ph = .idle) :
    hashEffect s = andThen (andThen (andThen (padEffect s) execHinit) fun t => runBlocks t.nblk t) execFmt := by
  rw [hashEffect, show execPad s = padEffect s from exec_pad_of_idle h]

/-- Settles O38: `PAD` stops at the address that `Memory.firstUnwritten` reports, and so does `HASH`, which begins with `PAD`. -/
theorem unwrittenMessageStops : Obligations.UnwrittenMessageStops := by
  unfold Obligations.UnwrittenMessageStops
  intro s hidle hcap hread
  obtain ⟨-, hlt, hnone, hbelow⟩ := Memory.firstUnwritten_spec hread
  have hpad := padEffect_of_unwritten hcap hread
  refine ⟨s.msg.firstUnwritten 0 s.mlen.toNat, by omega, hnone, fun x hx => hbelow x (Nat.zero_le x) hx, ?_, ?_⟩
  · rw [exec_pad_of_idle hidle, hpad]
  · rw [exec_hash_of_idle hidle, hashEffect_of_idle hidle, hpad]
    simp only [andThen_fault]

/-- Settles O40: each effect is a record that names its destinations; a fault starts outside `FAULT` and names `FC`, `FCMD`, `PH`. -/
theorem registerCommandsFrame : Obligations.RegisterCommandsFrame := by
  unfold Obligations.RegisterCommandsFrame
  intro i s t hpad hhash h
  cases commandCase_of_exec hhash h with
  | pad m hph hm => exact absurd rfl hpad
  | badPhase i hph _ => simp [hph]
  | blkOutOfRange idx hph _ => simp [hph]
  | blkBadIndex idx hph _ _ => simp [hph]
  | rndBadIndex idx hph _ _ => simp [hph]
  | discarded | hinit | winit | blk | sched | rnd | acc | fmt => simp

end Sys2Proof.Machine
end

section
/-! The written-registers invariant (10_state.md R51, R27): it reads only `PH` and the written flags. -/

namespace Sys2Proof.Machine

/-- Fault entry keeps it: nothing is asked in `FAULT`. -/
theorem writtenRules_faulted (s : State) (c : FaultCode) (cmd : CommandWord) : (s.faulted c cmd).writtenRules := by
  simp [State.writtenRules, State.inBlock, State.absorbed]

/-- In `IDLE` and `PADDED` nothing is asked. -/
theorem writtenRules_of_idle_or_padded {s : State} (h : s.ph = .idle ∨ s.ph = .padded) : s.writtenRules := by
  obtain h | h := h <;> simp [State.writtenRules, State.inBlock, State.absorbed, h]

/-- `ACC` enters `READY` or `DONE` (R183). -/
theorem phaseAfterAcc_ne_final (s : State) : phaseAfterAcc s ≠ .final := by
  unfold phaseAfterAcc
  split <;> simp

/-- Each command writes the file that the next phase asks for, and the others were asked for before. -/
theorem writtenRules_command {s t : State} {i : Instr} (hs : s.writtenRules) (h : CommandCase s i t) : t.writtenRules := by
  obtain ⟨hh, hS, hblkr, hw, hhex⟩ := hs
  cases h with
  | discarded i hph => exact ⟨hh, hS, hblkr, hw, hhex⟩
  | badPhase i => exact writtenRules_faulted ..
  | blkOutOfRange idx => exact writtenRules_faulted ..
  | blkBadIndex idx => exact writtenRules_faulted ..
  | rndBadIndex idx => exact writtenRules_faulted ..
  | pad m hph hm => exact writtenRules_of_idle_or_padded (.inr rfl)
  | hinit hph => simp [State.writtenRules, State.inBlock, State.absorbed]
  | winit hph =>
    have hHash := hh (.inl (.inl hph))
    simp [State.writtenRules, State.inBlock, State.absorbed, hHash]
  | blk bs hph =>
    have hHash := hh (.inl (.inr (.inl hph)))
    have hWorking := hS (.inl hph)
    simp [State.writtenRules, State.inBlock, State.absorbed, hHash, hWorking]
  | sched hph =>
    have hHash := hh (.inl (.inr (.inr (.inl hph))))
    have hWorking := hS (.inr (.inl hph))
    have hBlock := hblkr (.inl hph)
    simp [State.writtenRules, State.inBlock, State.absorbed, hHash, hWorking, hBlock]
  | rnd hph =>
    have hHash := hh (.inl (.inr (.inr (.inr hph))))
    have hBlock := hblkr (.inr (.inl hph))
    have hSchedule := hw (.inl hph)
    simp [State.writtenRules, State.inBlock, State.absorbed, hph, hHash, hBlock, hSchedule]
  | acc hph =>
    have hWorking := hS (.inr (.inr (.inl hph)))
    have hBlock := hblkr (.inr (.inl hph))
    have hSchedule := hw (.inl hph)
    simp [State.writtenRules, State.inBlock, State.absorbed, hWorking, hBlock, hSchedule, phaseAfterAcc_ne_final]
  | fmt hph =>
    have habsorbed : s.absorbed := .inl hph
    have hHash := hh (.inr habsorbed)
    have hWorking := hS (.inr (.inr (.inr habsorbed)))
    have hBlock := hblkr (.inr (.inr habsorbed))
    have hSchedule := hw (.inr habsorbed)
    simp [State.writtenRules, State.inBlock, State.absorbed, hHash, hWorking, hBlock, hSchedule]

theorem writtenRules_keptByStep : KeptByStep State.writtenRules where
  port _ hs := hs
  command := writtenRules_command
  illegal w _ := writtenRules_faulted _ _ w
  reset _ := writtenRules_of_idle_or_padded (.inl rfl)
  writeMsg _ hs _ := hs
  writeMlen _ hs := hs

/-- Settles O53: `writtenRules_keptByStep`, and in each command's phase the rule that names the files it reads. -/
theorem everyStepKeepsWrittenRegisters : Obligations.EveryStepKeepsWrittenRegisters := by
  unfold Obligations.EveryStepKeepsWrittenRegisters
  refine ⟨fun s t hs h => writtenRules_keptByStep.step hs h, fun s ⟨hh, hS, hblkr, hw, hhex⟩ => ?_⟩
  refine ⟨fun hph => hh (.inl (.inl hph)), fun hph => hblkr (.inl hph),
    fun idx ⟨hph, _⟩ => ⟨hS (.inr (.inr (.inl hph))), hw (.inl hph)⟩,
    fun ⟨hph, _⟩ => ⟨hh (.inl (.inr (.inr (.inr hph)))), hS (.inr (.inr (.inl hph)))⟩,
    fun hph => hh (.inr (.inl hph)), fun hph i => ⟨_, hostReadReg_of_hasValue (hhex hph)⟩⟩

end Sys2Proof.Machine
end

section
/-! The sequencer's invariant (10_state.md R33): fault entry, the two memories and each command keep it. -/

namespace Sys2Proof.Machine

/-! ### Lengths -/

/-- The padded length in closed form (41_padder.md R143). -/
theorem pad_length (m : List Byte) : (pad m).length = 64 * ((m.length + 8) / 64 + 1) := by
  simp only [pad, be64bytes, fillCount, List.length_append, List.length_replicate, List.length_cons, List.length_nil]
  omega

/-- The padding of a message in range is at most `PMSG_CAP` long (R6, 20_memory.md R69). -/
theorem pad_length_le_pmsgCap {m : List Byte} {cap : Nat} (h : m.length ≤ cap) : (pad m).length ≤ Config.pmsgCap cap := by
  rw [pad_length, Config.pmsgCap]
  omega

/-- No capacity that R6 admits makes the padded-message memory overrun a 64-bit length. -/
theorem pmsgCap_lt (cap : BitVec 61) : Config.pmsgCap cap.toNat < 2 ^ 62 := by
  have hcap := cap.isLt
  rw [Config.pmsgCap]
  omega

/-- What is known of a message that `PAD` reads: its padding fits `PMSG`, and `PLEN` holds its length. -/
theorem pad_of_messageIs {s : State} {m : List Byte} (h : s.messageIs m) :
    (pad m).length ≤ Config.pmsgCap s.msgCap.toNat ∧ (BitVec.ofNat 64 (pad m).length).toNat = (pad m).length := by
  obtain ⟨hlen, hread⟩ := h
  have hle : (pad m).length ≤ Config.pmsgCap s.msgCap.toNat :=
    pad_length_le_pmsgCap (by rw [Memory.readBytes_length hread]; exact hlen)
  have hcap := pmsgCap_lt s.msgCap
  exact ⟨hle, by rw [BitVec.toNat_ofNat, Nat.mod_eq_of_lt (by omega)]⟩

/-- While a padded message is held the block count fits `BI` with room to spare (R31). -/
theorem nblk_lt_of_paddedRules {s : State} (h : s.paddedRules) (hheld : s.holdsPadded) : s.nblk < 2 ^ 56 := by
  have hcap := pmsgCap_lt s.msgCap
  have hlen := (h hheld).1
  rw [State.nblk]
  omega

/-! ### What keeps the invariant -/

theorem seqInv_faulted {s : State} {c : FaultCode} (cmd : CommandWord) (hs : s.SeqInv) (hc : c ≠ .none) :
    (s.faulted c cmd).SeqInv := by
  obtain ⟨⟨-, -, -, hT, -⟩, hmem, -⟩ := hs
  refine ⟨?_, hmem, fun hheld => absurd rfl hheld.2⟩
  simp [State.seqRules, State.inBlock, State.absorbed, State.holdsPadded, hT, hc]

/-- The seven commands that store nothing to memory: with a padded message held before and no fault after, `T` and `BI` are all there is
to see to. -/
theorem seqInv_of_same_memories {s t : State} (hs : s.SeqInv) (hheld : s.holdsPadded)
    (hsame : t.msg = s.msg ∧ t.pmsg = s.pmsg ∧ t.msgCap = s.msgCap ∧ t.plen = s.plen ∧ t.fc = s.fc)
    (hph : t.ph ≠ .fault) (hT : t.t.toNat ≤ 64) (hblock : t.inBlock → t.bi.toNat < s.nblk)
    (habsorbed : t.absorbed → t.bi.toNat = s.nblk) : t.SeqInv := by
  obtain ⟨⟨-, -, hlen, -, hfc⟩, hmem, hpadded⟩ := hs
  obtain ⟨hmsg, hpmsg, hcap, hplen, hfc'⟩ := hsame
  have hnblk : t.nblk = s.nblk := by rw [State.nblk, State.nblk, hplen]
  refine ⟨⟨?_, ?_, ?_, hT, ?_⟩, ?_, ?_⟩
  · rwa [hnblk]
  · rwa [hnblk]
  · exact fun _ => hplen ▸ hlen hheld
  · simp [hfc', hfc.2 hheld.2, hph]
  · simpa only [State.memoryRules, hmsg, hpmsg, hcap] using hmem
  · exact fun _ => by simpa only [hpmsg, hcap, hplen] using hpadded hheld

/-- `PAD` stores a padded message that fits, in canonical form, and every byte of it. -/
theorem seqInv_pad {s : State} {m : List Byte} (hs : s.SeqInv) (hph : s.ph = .idle) (hm : s.messageIs m) :
    State.SeqInv { s with
      pmsg := s.pmsg.writeBytes 0 (pad m), plen := BitVec.ofNat 64 (pad m).length, ph := .padded } := by
  obtain ⟨⟨-, -, -, hT, hfc⟩, ⟨hmsg, hpmsg, hmsgIn, hpmsgIn⟩, -⟩ := hs
  obtain ⟨hfits, hplen⟩ := pad_of_messageIs hm
  refine ⟨⟨by simp [State.inBlock], by simp [State.absorbed], fun _ => ?_, hT, ?_⟩,
    ⟨hmsg, Memory.writeBytes_wf _ hpmsg 0, hmsgIn, fun c hc => ?_⟩, fun _ => ?_⟩
  · rw [hplen, pad_length]
    omega
  · simp [hfc.2, hph]
  · obtain ⟨-, hlt⟩ | hold := Memory.mem_writeBytes hc
    · show c.1 < Config.pmsgCap s.msgCap.toNat
      omega
    · exact hpmsgIn c hold
  · simp only [hplen, Memory.readBytes_writeBytes]
    exact ⟨hfits, rfl⟩

/-- `ACC` counts one block more and enters `DONE` when that was the last (45_compressor.md R183). -/
theorem seqInv_acc {s : State} (hs : s.SeqInv) (hph : s.ph = .rounds) :
    State.SeqInv { s with
      h := addLanes s.h s.s, bi := s.bi + 1#56, ph := phaseAfterAcc s, written := { s.written with h := true } } := by
  have hheld : s.holdsPadded := by simp [State.holdsPadded, hph]
  obtain ⟨⟨hblock, -, -, hT, -⟩, -, hpadded⟩ := id hs
  have hlt : s.bi.toNat < s.nblk := hblock (.inr (.inr (.inr hph)))
  have hbi : (s.bi + 1#56).toNat = s.bi.toNat + 1 := by
    have hnblk := nblk_lt_of_paddedRules hpadded hheld
    rw [BitVec.toNat_add, BitVec.toNat_ofNat]
    omega
  by_cases hmore : s.bi.toNat + 1 < s.nblk
  · rw [show phaseAfterAcc s = .ready from if_pos hmore]
    exact seqInv_of_same_memories hs hheld ⟨rfl, rfl, rfl, rfl, rfl⟩ (by simp) hT (fun _ => hbi ▸ hmore)
      (by simp [State.absorbed])
  · rw [show phaseAfterAcc s = .done from if_neg hmore]
    exact seqInv_of_same_memories hs hheld ⟨rfl, rfl, rfl, rfl, rfl⟩ (by simp) hT (by simp [State.inBlock])
      (fun _ => hbi.trans (by omega))

theorem seqInv_command {s t : State} {i : Instr} (hs : s.SeqInv) (h : CommandCase s i t) : t.SeqInv := by
  obtain ⟨hblock, habsorbed, hlen, hT, hfc⟩ := hs.1
  cases h with
  | discarded i hph => exact hs
  | badPhase i => exact seqInv_faulted _ hs (by simp)
  | blkOutOfRange idx => exact seqInv_faulted _ hs (by simp)
  | blkBadIndex idx => exact seqInv_faulted _ hs (by simp)
  | rndBadIndex idx => exact seqInv_faulted _ hs (by simp)
  | pad m hph hm => exact seqInv_pad hs hph hm
  | hinit hph =>
    have hheld : s.holdsPadded := by simp [State.holdsPadded, hph]
    have hpos : 0 < s.nblk := by
      have := hlen hheld
      rw [State.nblk]
      omega
    exact seqInv_of_same_memories hs hheld ⟨rfl, rfl, rfl, rfl, rfl⟩ (by simp) hT (fun _ => hpos) (by simp [State.absorbed])
  | winit hph =>
    exact seqInv_of_same_memories hs (by simp [State.holdsPadded, hph]) ⟨rfl, rfl, rfl, rfl, rfl⟩ (by simp) hT
      (fun _ => hblock (.inl hph)) (by simp [State.absorbed])
  | blk bs hph hlt =>
    exact seqInv_of_same_memories hs (by simp [State.holdsPadded, hph]) ⟨rfl, rfl, rfl, rfl, rfl⟩ (by simp) hT
      (fun _ => hlt) (by simp [State.absorbed])
  | sched hph =>
    exact seqInv_of_same_memories hs (by simp [State.holdsPadded, hph]) ⟨rfl, rfl, rfl, rfl, rfl⟩ (by simp) (by simp)
      (fun _ => hblock (.inr (.inr (.inl hph)))) (by simp [State.absorbed])
  | rnd hph hlt =>
    have hT' : (s.t + 1#7).toNat ≤ 64 := by
      rw [BitVec.toNat_add, BitVec.toNat_ofNat]
      omega
    exact seqInv_of_same_memories hs (by simp [State.holdsPadded, hph]) ⟨rfl, rfl, rfl, rfl, rfl⟩ (by simp [hph]) hT'
      (fun _ => hblock (.inr (.inr (.inr hph)))) (by simp [State.absorbed, hph])
  | acc hph => exact seqInv_acc hs hph
  | fmt hph =>
    exact seqInv_of_same_memories hs (by simp [State.holdsPadded, hph]) ⟨rfl, rfl, rfl, rfl, rfl⟩ (by simp) hT
      (by simp [State.inBlock]) (fun _ => habsorbed (.inl hph))

/-- A host write in range keeps the form of `MSG`; nothing else reads `MSG`. -/
theorem seqInv_writeMsg {s : State} {a : Nat} (b : Byte) (hs : s.SeqInv) (ha : a < s.msgCap.toNat) :
    (s.setMsg (s.msg.write a b)).SeqInv := by
  obtain ⟨hseq, ⟨hmsg, hpmsg, hmsgIn, hpmsgIn⟩, hpadded⟩ := hs
  refine ⟨hseq, ⟨Memory.write_wf a b hmsg, hpmsg, fun c hc => ?_, hpmsgIn⟩, hpadded⟩
  obtain rfl | hold := Memory.mem_write hc
  · exact ha
  · exact hmsgIn c hold

/-- The reset event keeps `MSG` and its capacity, and holds no padded message. -/
theorem seqInv_applyReset {s : State} (hs : s.SeqInv) : (applyReset s).SeqInv := by
  obtain ⟨-, ⟨hmsg, -, hmsgIn, -⟩, -⟩ := hs
  have hseq : (applyReset s).seqRules := by
    show State.reset.seqRules
    decide
  exact ⟨hseq, ⟨hmsg, rfl, hmsgIn, fun c hc => absurd hc List.not_mem_nil⟩, fun hheld => absurd rfl hheld.1⟩

theorem seqInv_keptByStep : KeptByStep State.SeqInv where
  port _ hs := hs
  command := seqInv_command
  illegal w hs := seqInv_faulted w hs (by simp)
  reset := seqInv_applyReset
  writeMsg := seqInv_writeMsg
  writeMlen _ hs := hs

/-- Settles O52: every part of a step keeps the invariant. -/
theorem everyStepKeepsSequencerInvariant : Obligations.EveryStepKeepsSequencerInvariant := by
  unfold Obligations.EveryStepKeepsSequencerInvariant
  exact fun s t hs h => seqInv_keptByStep.step hs h

end Sys2Proof.Machine
end

section
/-! Control does not depend on data (10_state.md R35, R120, R221). A step is `Blind`: run on the state with its data erased it
answers what it answers on the state, up to the data. Blindness is closed under the phase test and under sequencing, so it is enough to see it
of each effect. -/

namespace Sys2Proof.Machine

/-! ### Erasing the data and the register writes -/

namespace State

variable (s : State)

@[simp] theorem eraseData_ph : s.eraseData.ph = s.ph := rfl
@[simp] theorem eraseData_bi : s.eraseData.bi = s.bi := rfl
@[simp] theorem eraseData_t : s.eraseData.t = s.t := rfl
@[simp] theorem eraseData_mlen : s.eraseData.mlen = s.mlen := rfl
@[simp] theorem eraseData_plen : s.eraseData.plen = s.plen := rfl
@[simp] theorem eraseData_msg : s.eraseData.msg = eraseBytes s.msg := rfl
@[simp] theorem eraseData_pmsg : s.eraseData.pmsg = eraseBytes s.pmsg := rfl
@[simp] theorem eraseData_msgCap : s.eraseData.msgCap = s.msgCap := rfl
@[simp] theorem eraseData_port : s.eraseData.port = s.port := rfl
@[simp] theorem eraseData_nblk : s.eraseData.nblk = s.nblk := rfl
@[simp] theorem eraseData_capacity (space : Space) : s.eraseData.capacity space = s.capacity space := by cases space <;> rfl
@[simp] theorem eraseData_memory (space : Space) : s.eraseData.memory space = eraseBytes (s.memory space) := by
  cases space <;> rfl

@[simp] theorem eraseData_idem : s.eraseData.eraseData = s.eraseData := by simp [eraseData]

/-! The write of a data register file leaves only its mark in the written files. -/

@[simp] theorem eraseData_setS (v : Vector Word 8) :
    (s.setS v).eraseData = s.eraseData.setS (Vector.replicate 8 0#32) := rfl
@[simp] theorem eraseData_setH (v : Vector Word 8) :
    (s.setH v).eraseData = s.eraseData.setH (Vector.replicate 8 0#32) := rfl
@[simp] theorem eraseData_setW (v : Vector Word 64) :
    (s.setW v).eraseData = s.eraseData.setW (Vector.replicate 64 0#32) := rfl
@[simp] theorem eraseData_setBlkr (v : Vector Byte 64) :
    (s.setBlkr v).eraseData = s.eraseData.setBlkr (Vector.replicate 64 0#8) := rfl
@[simp] theorem eraseData_setHex (v : Vector Byte 64) :
    (s.setHex v).eraseData = s.eraseData.setHex (Vector.replicate 64 0#8) := rfl
@[simp] theorem eraseData_setPh (v : Phase) : (s.setPh v).eraseData = s.eraseData.setPh v := rfl
@[simp] theorem eraseData_setBi (v : BitVec 56) : (s.setBi v).eraseData = s.eraseData.setBi v := rfl
@[simp] theorem eraseData_setT (v : BitVec 7) : (s.setT v).eraseData = s.eraseData.setT v := rfl
@[simp] theorem eraseData_setMlen (v : BitVec 64) : (s.setMlen v).eraseData = s.eraseData.setMlen v := rfl
@[simp] theorem eraseData_setPlen (v : BitVec 64) : (s.setPlen v).eraseData = s.eraseData.setPlen v := rfl
@[simp] theorem eraseData_setMsg (m : Memory) : (s.setMsg m).eraseData = s.eraseData.setMsg (eraseBytes m) := rfl
@[simp] theorem eraseData_setPmsg (m : Memory) : (s.setPmsg m).eraseData = s.eraseData.setPmsg (eraseBytes m) := rfl
@[simp] theorem eraseData_setPort (v : List HostAction) : (s.setPort v).eraseData = s.eraseData.setPort v := rfl

end State

@[simp] theorem eraseData_takeFault (c : FaultCode) (cmd : CommandWord) (s : State) :
    (takeFault c cmd s).eraseData = takeFault c cmd s.eraseData := rfl

@[simp] theorem eraseData_applyReset (s : State) : (applyReset s).eraseData = applyReset s.eraseData := rfl

@[simp] theorem phaseAfterAcc_eraseData (s : State) : phaseAfterAcc s.eraseData = phaseAfterAcc s := rfl

@[simp] theorem mapNext_next (f : State → State) (s : State) : mapNext f (.next s) = .next (f s) := rfl
@[simp] theorem mapNext_fault (f : State → State) (e : Fault) : mapNext f (.fault e) = .fault e := rfl
@[simp] theorem mapNext_refused (f : State → State) (e : Refusal) : mapNext f (.refused e) = .refused e := rfl

/-! ### Blind operations -/

/-- `f` answers alike, up to the data, on a state and on it with its data erased. -/
def Blind (f : State → Result) : Prop :=
  ∀ s, mapNext State.eraseData (f s.eraseData) = mapNext State.eraseData (f s)

/-- The obligation's form: states that differ only in data are answered alike. -/
theorem Blind.congr {f : State → Result} (hf : Blind f) {s s' : State} (h : s.eraseData = s'.eraseData) :
    mapNext State.eraseData (f s) = mapNext State.eraseData (f s') := by
  rw [← hf s, h, hf s']

theorem blind_next : Blind .next := fun s => by simp

/-- A blind operation after answers that agree up to the data. -/
theorem Blind.andThen_congr {g : State → Result} (hg : Blind g) {r r' : Result}
    (h : mapNext State.eraseData r = mapNext State.eraseData r') :
    mapNext State.eraseData (andThen r g) = mapNext State.eraseData (andThen r' g) := by
  cases r <;> cases r' <;> simp only [mapNext, Host.Outcome.next.injEq, reduceCtorEq] at h
  case next.next s s' => exact hg.congr h
  case fault.fault => exact congrArg _ h
  case refused.refused => exact congrArg _ h

theorem Blind.andThen {f g : State → Result} (hf : Blind f) (hg : Blind g) : Blind fun s => andThen (f s) g :=
  fun s => hg.andThen_congr (hf s)

/-- The phase test is blind where its condition reads control registers only. -/
theorem Blind.whenLegal {i : Instr} {legal : State → Bool} {effect : State → Result} (heffect : Blind effect)
    (hlegal : ∀ s, legal s.eraseData = legal s) : Blind fun s => whenLegal i (legal s) effect s := by
  intro s
  simp only [Machine.whenLegal, hlegal, State.eraseData_ph]
  split
  · exact blind_next s
  · split
    · exact heffect s
    · simp

/-! ### The commands -/

/-- What `PAD` stores, its bytes forgotten, and `PLEN` depend on the message's length only. -/
theorem blind_padEffect : Blind padEffect := by
  intro s
  simp only [padEffect, State.eraseData_msgCap, State.eraseData_mlen, State.eraseData_msg, readBytes_eraseBytes,
    firstUnwritten_eraseBytes]
  split
  · rfl
  · cases s.msg.readBytes 0 s.mlen.toNat with
    | none => rfl
    | some m => simp [eraseBytes_writeBytes, pad_length]

theorem blind_blkEffect (idx : Index) : Blind (blkEffect idx) := by
  intro s
  have hrange : idxOutOfRange idx s.eraseData = idxOutOfRange idx s := rfl
  have hindex : idxIsNotBlock idx s.eraseData = idxIsNotBlock idx s := rfl
  simp only [blkEffect, hrange, hindex, State.eraseData_pmsg, readBytes_eraseBytes, firstUnwritten_eraseBytes]
  split
  · simp
  · split
    · simp
    · cases s.pmsg.readBytes (blockStart idx) 64 with
      | none => rfl
      | some bs => simp

theorem blind_rndEffect (idx : Index) : Blind (rndEffect idx) := by
  intro s
  have hindex : idxIsNotRound idx s.eraseData = idxIsNotRound idx s := rfl
  simp only [rndEffect, hindex]
  split <;> simp

theorem blind_execPad : Blind execPad := blind_padEffect.whenLegal fun _ => rfl

theorem blind_execHinit : Blind execHinit :=
  Blind.whenLegal (effect := hinitEffect) (fun s => by simp [hinitEffect]) fun _ => rfl

theorem blind_execWinit : Blind execWinit :=
  Blind.whenLegal (effect := winitEffect) (fun s => by simp [winitEffect]) fun _ => rfl

theorem blind_execBlk (idx : Index) : Blind (execBlk idx) := (blind_blkEffect idx).whenLegal fun _ => rfl

theorem blind_execSched : Blind execSched :=
  Blind.whenLegal (effect := schedEffect) (fun s => by simp [schedEffect]) fun _ => rfl

theorem blind_execRnd (idx : Index) : Blind (execRnd idx) := (blind_rndEffect idx).whenLegal fun _ => rfl

theorem blind_execAcc : Blind execAcc :=
  Blind.whenLegal (effect := accEffect) (fun s => by simp [accEffect]) fun _ => rfl

theorem blind_execFmt : Blind execFmt :=
  Blind.whenLegal (effect := fmtEffect) (fun s => by simp [fmtEffect]) fun _ => rfl

/-! ### `HASH` -/

theorem blind_runRounds : ∀ n, Blind (runRounds n)
  | 0 => blind_next
  | n + 1 => (blind_runRounds n).andThen (blind_execRnd _)

theorem blind_runBlock (i : Nat) : Blind (runBlock i) :=
  (((blind_execWinit.andThen (blind_execBlk _)).andThen blind_execSched).andThen (blind_runRounds 64)).andThen blind_execAcc

theorem blind_runBlocks : ∀ n, Blind (runBlocks n)
  | 0 => blind_next
  | n + 1 => (blind_runBlocks n).andThen (blind_runBlock n)

theorem blind_hashEffect : Blind hashEffect := by
  have hblocks : Blind fun t => runBlocks t.nblk t := fun t => blind_runBlocks t.nblk t
  exact ((blind_execPad.andThen blind_execHinit).andThen hblocks).andThen blind_execFmt

theorem blind_execHash : Blind execHash := blind_hashEffect.whenLegal fun _ => rfl

theorem blind_exec (i : Instr) : Blind (exec i) := by
  cases i with
  | pad => exact blind_execPad
  | hinit => exact blind_execHinit
  | winit => exact blind_execWinit
  | blk idx => exact blind_execBlk idx
  | sched => exact blind_execSched
  | rnd idx => exact blind_execRnd idx
  | acc => exact blind_execAcc
  | fmt => exact blind_execFmt
  | hash => exact blind_execHash

/-! ### The host's actions -/

theorem blind_acceptWord (w : CommandWord) : Blind (acceptWord w) := by
  intro s
  by_cases hf : s.ph = .fault
  · rw [acceptWord_of_fault hf, acceptWord_of_fault (s := s.eraseData) hf]
    exact blind_next s
  · cases hdec : decode w with
    | error e =>
      rw [acceptWord_of_error hf hdec, acceptWord_of_error (s := s.eraseData) hf hdec]
      simp
    | ok i =>
      rw [acceptWord_of_ok hf hdec, acceptWord_of_ok (s := s.eraseData) hf hdec]
      exact blind_exec i s

theorem blind_hostWriteMsg (a : Nat) (b : Byte) : Blind (hostWriteMsg a b) := by
  intro s
  simp only [hostWriteMsg, State.eraseData_capacity]
  split
  · simp [eraseBytes_write]
  · rfl

theorem blind_serveRead (space : Space) (a : Nat) : Blind (serveRead space a) := by
  intro s
  simp only [serveRead, hostReadByte, State.eraseData_capacity, State.eraseData_memory, read_eraseBytes]
  by_cases ha : a < s.capacity space
  · cases (s.memory space).read a <;> simp [ha]
  · simp [ha]

theorem blind_serveAction (a : HostAction) : Blind (serveAction a) := by
  cases a with
  | command w => exact blind_acceptWord w
  | reset => exact fun s => by simp [serveAction]
  | writeMsg a b => exact blind_hostWriteMsg a b
  | writeMlen v => exact fun s => by simp [serveAction]
  | readByte space a => exact blind_serveRead space a
  | readReg r => exact blind_next

theorem blind_step : Blind step := by
  intro s
  cases hport : s.port with
  | nil => rw [step_of_port_nil hport, step_of_port_nil (s := s.eraseData) hport, mapNext_next, mapNext_next,
      State.eraseData_idem]
  | cons a rest =>
    rw [step_of_port_cons hport, step_of_port_cons (s := s.eraseData) hport]
    exact blind_serveAction a (s.setPort rest)

/-- Settles O49: a step is blind. -/
theorem controlIgnoresData : Obligations.ControlIgnoresData := by
  unfold Obligations.ControlIgnoresData
  exact fun s s' h => blind_step.congr h

end Sys2Proof.Machine
end

section
/-! What the host's accesses to the two memories and to `MLEN` do (20_memory.md R61, R62, R68, R69, 10_state.md R36, R41, R51). -/

namespace Sys2Proof.Machine

/-! ### Reads of a memory byte -/

theorem hostReadByte_of_written {space : Space} {a : Nat} {b : Byte} {s : State} (ha : a < s.capacity space)
    (hb : (s.memory space).read a = some b) : hostReadByte space a s = .ok b := by
  rw [hostReadByte, if_pos ha, hb]

theorem hostReadByte_of_unwritten {space : Space} {a : Nat} {s : State} (ha : a < s.capacity space)
    (hnone : (s.memory space).read a = none) : hostReadByte space a s = .error (.hostUnwrittenRead space a) := by
  rw [hostReadByte, if_pos ha, hnone]

theorem hostReadByte_of_no_address {space : Space} {a : Nat} {s : State} (ha : s.capacity space ≤ a) :
    hostReadByte space a s = .error (.hostNoSuchAddress space a) := by
  rw [hostReadByte, if_neg (Nat.not_lt.2 ha)]

@[simp] theorem hostReadByte_setPort (space : Space) (a : Nat) (s : State) (rest : List HostAction) :
    hostReadByte space a (s.setPort rest) = hostReadByte space a s := by
  cases space <;> rfl

/-- A read with a result only takes its action off the queue. -/
theorem step_readByte_of_ok {space : Space} {a : Nat} {b : Byte} {s : State} {rest : List HostAction}
    (hport : s.port = .readByte space a :: rest) (hread : hostReadByte space a s = .ok b) :
    step s = .next (s.setPort rest) := by
  rw [step_of_port_cons hport, serveAction, serveRead, hostReadByte_setPort, hread]

/-- A read without a result is refused for the reason it has none. -/
theorem step_readByte_of_error {space : Space} {a : Nat} {r : Refusal} {s : State} {rest : List HostAction}
    (hport : s.port = .readByte space a :: rest) (hread : hostReadByte space a s = .error r) : step s = .refused r := by
  rw [step_of_port_cons hport, serveAction, serveRead, hostReadByte_setPort, hread]

/-! ### Writes of `MSG` -/

theorem step_writeMsg_of_lt {a : Nat} {b : Byte} {s : State} {rest : List HostAction}
    (hport : s.port = .writeMsg a b :: rest) (ha : a < s.msgCap.toNat) :
    step s = .next ((s.setPort rest).setMsg (s.msg.write a b)) :=
  (step_of_port_cons hport).trans (if_pos ha)

theorem step_writeMsg_of_no_address {a : Nat} {b : Byte} {s : State} {rest : List HostAction}
    (hport : s.port = .writeMsg a b :: rest) (ha : s.msgCap.toNat ≤ a) : step s = .refused (.hostNoSuchAddress .msg a) :=
  (step_of_port_cons hport).trans (if_neg (Nat.not_lt.2 ha))

/-- Settles O23: the three results of `hostReadByte` in each memory, and the write of `MSG` in and out of range. -/
theorem hostAccessEffects : Obligations.HostAccessEffects := by
  unfold Obligations.HostAccessEffects
  intro s rest
  refine ⟨fun a b hport ha => ?write, fun a b hport ha => step_writeMsg_of_no_address hport ha,
    fun v hport => step_of_port_cons hport, fun r hport => step_of_port_cons hport, fun a b hport ha hb => ?readMsg,
    fun a b hport ha hb => ?readPmsg, fun a hport ha => ?noMsg, fun a hport ha => ?noPmsg, fun a hport ha hnone => ?unwrittenMsg,
    fun a hport ha hnone => ?unwrittenPmsg⟩
  case write =>
    exact ⟨_, step_writeMsg_of_lt hport ha, Memory.read_write_same s.msg a b,
      fun x hx => Memory.read_write_other s.msg b hx, rfl⟩
  case readMsg =>
    have hread : hostReadByte .msg a s = .ok b := hostReadByte_of_written ha hb
    exact ⟨step_readByte_of_ok hport hread, hread⟩
  case readPmsg =>
    have hread : hostReadByte .pmsg a s = .ok b := hostReadByte_of_written ha hb
    exact ⟨step_readByte_of_ok hport hread, hread⟩
  case noMsg => exact step_readByte_of_error hport (hostReadByte_of_no_address ha)
  case noPmsg => exact step_readByte_of_error hport (hostReadByte_of_no_address ha)
  case unwrittenMsg => exact step_readByte_of_error hport (hostReadByte_of_unwritten ha hnone)
  case unwrittenPmsg => exact step_readByte_of_error hport (hostReadByte_of_unwritten ha hnone)

end Sys2Proof.Machine
end

section
/-! Outside `IDLE` no command reads `MSG` or `MLEN` (20_memory.md R80): only `PAD` and `HASH` read them, and their phase test fails. -/

namespace Sys2Proof.Machine

section

variable (msg : Memory) (mlen : BitVec 64)

/-- `f` does on `s` with another message what it does on `s`, and leaves that message. -/
def IgnoresMessage (f : State → Result) (s : State) : Prop :=
  f (s.withMessage msg mlen) = mapNext (fun t => t.withMessage msg mlen) (f s)

variable {msg mlen} {s : State}

/-- Only an effect that the phase test lets through has to ignore the message. -/
theorem IgnoresMessage.whenLegal {i : Instr} {legal : Bool} {effect : State → Result}
    (heffect : legal = true → IgnoresMessage msg mlen effect s) :
    IgnoresMessage msg mlen (whenLegal i legal effect) s := by
  have hph : (s.withMessage msg mlen).ph = s.ph := rfl
  by_cases hf : s.ph = .fault
  · rw [IgnoresMessage, whenLegal_in_fault (hph.trans hf), whenLegal_in_fault hf, mapNext_next]
  · cases legal with
    | true => rw [IgnoresMessage, whenLegal_of_legal (hph ▸ hf) rfl, whenLegal_of_legal hf rfl, heffect rfl]
    | false => rw [IgnoresMessage, whenLegal_of_not_legal (hph ▸ hf) rfl, whenLegal_of_not_legal hf rfl, mapNext_next]; rfl

/-- `BLK` compares with `PLEN` and `BI` and reads `PMSG`. -/
theorem ignoresMessage_blkEffect (idx : Index) : IgnoresMessage msg mlen (blkEffect idx) s := by
  have hrange : idxOutOfRange idx (s.withMessage msg mlen) = idxOutOfRange idx s := rfl
  have hindex : idxIsNotBlock idx (s.withMessage msg mlen) = idxIsNotBlock idx s := rfl
  have hpmsg : (s.withMessage msg mlen).pmsg = s.pmsg := rfl
  simp only [IgnoresMessage, blkEffect, hrange, hindex, hpmsg]
  split
  · rfl
  · split
    · rfl
    · cases s.pmsg.readBytes (blockStart idx) 64 <;> rfl

/-- `RND` compares with `T`. -/
theorem ignoresMessage_rndEffect (idx : Index) : IgnoresMessage msg mlen (rndEffect idx) s := by
  have hindex : idxIsNotRound idx (s.withMessage msg mlen) = idxIsNotRound idx s := rfl
  simp only [IgnoresMessage, rndEffect, hindex]
  split <;> rfl

theorem ignoresMessage_exec (i : Instr) (hidle : s.ph ≠ .idle) : IgnoresMessage msg mlen (exec i) s := by
  cases i with
  | pad => exact .whenLegal (effect := padEffect) fun hb => absurd (of_decide_eq_true hb) hidle
  | hinit => exact .whenLegal (effect := hinitEffect) fun _ => rfl
  | winit => exact .whenLegal (effect := winitEffect) fun _ => rfl
  | blk idx => exact .whenLegal fun _ => ignoresMessage_blkEffect idx
  | sched => exact .whenLegal (effect := schedEffect) fun _ => rfl
  | rnd idx => exact .whenLegal fun _ => ignoresMessage_rndEffect idx
  | acc => exact .whenLegal (effect := accEffect) fun _ => rfl
  | fmt => exact .whenLegal (effect := fmtEffect) fun _ => rfl
  | hash => exact .whenLegal (effect := hashEffect) fun hb => absurd (of_decide_eq_true hb) hidle

theorem ignoresMessage_acceptWord (w : CommandWord) (hidle : s.ph ≠ .idle) : IgnoresMessage msg mlen (acceptWord w) s := by
  have hph : (s.withMessage msg mlen).ph = s.ph := rfl
  by_cases hf : s.ph = .fault
  · rw [IgnoresMessage, acceptWord_of_fault (hph.trans hf), acceptWord_of_fault hf, mapNext_next]
  · cases hdec : decode w with
    | error e => rw [IgnoresMessage, acceptWord_of_error (hph ▸ hf) hdec, acceptWord_of_error hf hdec, mapNext_next]; rfl
    | ok i =>
      rw [IgnoresMessage, acceptWord_of_ok (hph ▸ hf) hdec, acceptWord_of_ok hf hdec]
      exact ignoresMessage_exec i hidle

end

/-- Settles O48: a word presented outside `IDLE` ignores the message. -/
theorem messageWritesAfterPadAreHarmless : Obligations.MessageWritesAfterPadAreHarmless := by
  unfold Obligations.MessageWritesAfterPadAreHarmless
  intro s w rest msg mlen hidle hport
  rw [step_of_port_cons hport, step_of_port_cons (s := s.withMessage msg mlen) hport]
  exact ignoresMessage_acceptWord (s := s.setPort rest) w hidle

end Sys2Proof.Machine
end

section
/-! `HASH` on the sequencer (45_compressor.md R185, R186, R191): if it answers a next state, no command of its expansion has faulted, and
the sequencer stands where the last `FMT` leaves it. The commands read the data only to compute data, so the run is followed on the
sequencer's registers alone. -/

namespace Sys2Proof.Machine

/-- The registers that decide which command may run, and the fault registers (10_state.md R30 to R32, R37 to R39). -/
structure Sequencer where
  ph   : Phase
  bi   : BitVec 56
  t    : BitVec 7
  plen : BitVec 64
  fc   : FaultCode
  fcmd : CommandWord

def State.sequencer (s : State) : Sequencer := ⟨s.ph, s.bi, s.t, s.plen, s.fc, s.fcmd⟩

/-! ### One command, where it is legal and carries the index asked for -/

theorem effect_next_of_legal {i : Instr} {legal : Bool} {effect : State → Result} {s t : State}
    (h : whenLegal i legal effect s = .next t) (hf : s.ph ≠ .fault) (hlegal : legal = true) : effect s = .next t :=
  (whenLegal_of_legal hf hlegal).symm.trans h

section

variable {s t : State}

theorem sequencer_execPad (hph : s.ph = .idle) (h : execPad s = .next t) :
    ∃ m, s.messageIs m ∧ t.sequencer = { s.sequencer with ph := .padded, plen := BitVec.ofNat 64 (pad m).length } := by
  obtain ⟨m, hm, rfl⟩ := padEffect_next (effect_next_of_legal h (by simp [hph]) (by simp [hph]))
  exact ⟨m, hm, rfl⟩

theorem sequencer_execHinit (hph : s.ph = .padded) (h : execHinit s = .next t) :
    t.sequencer = { s.sequencer with ph := .ready, bi := 0#56 } := by
  cases effect_next_of_legal h (by simp [hph]) (by simp [hph])
  rfl

theorem sequencer_execWinit (hph : s.ph = .ready) (h : execWinit s = .next t) :
    t.sequencer = { s.sequencer with ph := .wset } := by
  cases effect_next_of_legal h (by simp [hph]) (by simp [hph])
  rfl

theorem sequencer_execBlk (hph : s.ph = .wset) (hbi : s.bi.toNat < s.nblk) (h : execBlk s.bi s = .next t) :
    t.sequencer = { s.sequencer with ph := .loaded } := by
  obtain ⟨hr, -⟩ | ⟨-, hi, -⟩ | ⟨-, -, bs, -, rfl⟩ :=
    blkEffect_next (effect_next_of_legal h (by simp [hph]) (by simp [hph]))
  · omega
  · exact absurd rfl hi
  · rfl

theorem sequencer_execSched (hph : s.ph = .loaded) (h : execSched s = .next t) :
    t.sequencer = { s.sequencer with ph := .rounds, t := 0#7 } := by
  cases effect_next_of_legal h (by simp [hph]) (by simp [hph])
  rfl

theorem sequencer_execRnd (hph : s.ph = .rounds) (hT : s.t.toNat < 64) (h : execRnd (s.t.setWidth 56) s = .next t) :
    t.sequencer = { s.sequencer with t := s.t + 1#7 } := by
  obtain ⟨hi, -⟩ | ⟨-, rfl⟩ := rndEffect_next (effect_next_of_legal h (by simp [hph]) (by simp [hph, hT]))
  · exact absurd rfl hi
  · rfl

theorem sequencer_execAcc (hph : s.ph = .rounds) (hT : s.t = 64#7) (h : execAcc s = .next t) :
    t.sequencer = { s.sequencer with ph := phaseAfterAcc s, bi := s.bi + 1#56 } := by
  cases effect_next_of_legal h (by simp [hph]) (by simp [hph, hT])
  rfl

theorem sequencer_execFmt (hph : s.ph = .done) (h : execFmt s = .next t) :
    t.sequencer = { s.sequencer with ph := .final } := by
  cases effect_next_of_legal h (by simp [hph]) (by simp [hph])
  rfl

end

/-! ### The loops -/

section

variable {s : State}

/-- After `n` rounds `T` is `n`, so the next `RND` carries the index that `T` asks for. -/
theorem sequencer_runRounds (hph : s.ph = .rounds) (hT : s.t = 0#7) : ∀ {n : Nat} {t : State}, n ≤ 64 →
    runRounds n s = .next t → t.sequencer = { s.sequencer with t := BitVec.ofNat 7 n }
  | 0, t, _, h => by
    cases h
    exact hT ▸ rfl
  | n + 1, t, hn, h => by
    obtain ⟨u, hu, ht⟩ := andThen_eq_next h
    have hseq := sequencer_runRounds hph hT (Nat.le_of_succ_le hn) hu
    have hphU : u.ph = .rounds := (congrArg Sequencer.ph hseq).trans hph
    have hTU : u.t = BitVec.ofNat 7 n := congrArg Sequencer.t hseq
    have hlt : u.t.toNat < 64 := by rw [hTU, BitVec.toNat_ofNat]; omega
    have hidx : BitVec.ofNat 56 n = u.t.setWidth 56 := by
      rw [idx_eq_round_iff, hTU, BitVec.toNat_ofNat, BitVec.toNat_ofNat]
      omega
    rw [hidx] at ht
    rw [sequencer_execRnd hphU hlt ht, hseq, hTU, ← BitVec.ofNat_add]

/-- Where `ACC` leads is decided by `BI` and `PLEN`. -/
theorem phaseAfterAcc_congr {u : State} (hbi : u.bi = s.bi) (hplen : u.plen = s.plen) :
    phaseAfterAcc u = phaseAfterAcc s := by
  rw [phaseAfterAcc, phaseAfterAcc, State.nblk, State.nblk, hbi, hplen]

/-- One block, asked for by its own index. -/
theorem sequencer_runBlock {t : State} {i : Nat} (hph : s.ph = .ready) (hi : BitVec.ofNat 56 i = s.bi) (hbi : s.bi.toNat < s.nblk)
    (h : runBlock i s = .next t) :
    t.sequencer = { s.sequencer with ph := phaseAfterAcc s, bi := s.bi + 1#56, t := 64#7 } := by
  obtain ⟨u4, h4, hacc⟩ := andThen_eq_next h
  obtain ⟨u3, h3, hrounds⟩ := andThen_eq_next h4
  obtain ⟨u2, h2, hsched⟩ := andThen_eq_next h3
  obtain ⟨u1, hwinit, hblk⟩ := andThen_eq_next h2
  have seq1 : u1.sequencer = { s.sequencer with ph := .wset } := sequencer_execWinit hph hwinit
  have hbi1 : u1.bi = s.bi := congrArg Sequencer.bi seq1
  have hplen1 : u1.plen = s.plen := congrArg Sequencer.plen seq1
  have seq2 : u2.sequencer = { s.sequencer with ph := .loaded } := by
    rw [hi, ← hbi1] at hblk
    rw [sequencer_execBlk (congrArg Sequencer.ph seq1) (by rwa [State.nblk, hbi1, hplen1]) hblk, seq1]
  have seq3 : u3.sequencer = { s.sequencer with ph := .rounds, t := 0#7 } := by
    rw [sequencer_execSched (congrArg Sequencer.ph seq2) hsched, seq2]
  have seq4 : u4.sequencer = { s.sequencer with ph := .rounds, t := 64#7 } := by
    rw [sequencer_runRounds (congrArg Sequencer.ph seq3) (congrArg Sequencer.t seq3) (Nat.le_refl 64) hrounds, seq3]
  have hbi4 : u4.bi = s.bi := congrArg Sequencer.bi seq4
  rw [sequencer_execAcc (congrArg Sequencer.ph seq4) (congrArg Sequencer.t seq4) hacc, seq4, hbi4,
    phaseAfterAcc_congr hbi4 (congrArg Sequencer.plen seq4)]

/-- After the first `n` blocks `BI` is `n`, and the phase says whether a block is left. -/
theorem sequencer_runBlocks (hph : s.ph = .ready) (hbi : s.bi = 0#56) (hpos : 0 < s.nblk) (hnblk : s.nblk < 2 ^ 56) :
    ∀ {n : Nat} {t : State}, n ≤ s.nblk → runBlocks n s = .next t → t.sequencer = { s.sequencer with
      ph := if n < s.nblk then .ready else .done, bi := BitVec.ofNat 56 n, t := if n = 0 then s.t else 64#7 }
  | 0, t, _, h => by
    cases h
    rw [if_pos hpos, if_pos rfl, ← hph, ← hbi]
    rfl
  | n + 1, t, hn, h => by
    obtain ⟨u, hu, ht⟩ := andThen_eq_next h
    have hseq := sequencer_runBlocks hph hbi hpos hnblk (Nat.le_of_succ_le hn) hu
    rw [if_pos (Nat.lt_of_succ_le hn)] at hseq
    have hbiU : BitVec.ofNat 56 n = u.bi := (congrArg Sequencer.bi hseq).symm
    have hnblkU : u.nblk = s.nblk := congrArg (fun q : Sequencer => q.plen.toNat / 64) hseq
    have hnat : u.bi.toNat = n := by rw [← hbiU, BitVec.toNat_ofNat, Nat.mod_eq_of_lt (by omega)]
    rw [sequencer_runBlock (congrArg Sequencer.ph hseq) hbiU (by omega) ht, hseq, phaseAfterAcc, hnat, hnblkU, ← hbiU,
      ← BitVec.ofNat_add, if_neg (Nat.succ_ne_zero n)]

/-- `HASH` in `IDLE`: `PLEN` is the padded length, all blocks are absorbed, and no fault was taken. -/
theorem sequencer_hashEffect {t : State} (hph : s.ph = .idle) (h : hashEffect s = .next t) :
    ∃ m, s.messageIs m ∧ t.sequencer = { s.sequencer with
      ph := .final, bi := BitVec.ofNat 56 ((pad m).length / 64), t := 64#7, plen := BitVec.ofNat 64 (pad m).length } := by
  obtain ⟨u3, h3, hfmt⟩ := andThen_eq_next h
  obtain ⟨u2, h2, hblocks⟩ := andThen_eq_next h3
  obtain ⟨u1, hpad, hhinit⟩ := andThen_eq_next h2
  obtain ⟨m, hm, seq1⟩ := sequencer_execPad hph hpad
  obtain ⟨hle, hplen⟩ := pad_of_messageIs hm
  have hcap := pmsgCap_lt s.msgCap
  have seq2 : u2.sequencer = { s.sequencer with
      ph := .ready, bi := 0#56, plen := BitVec.ofNat 64 (pad m).length } := by
    rw [sequencer_execHinit (congrArg Sequencer.ph seq1) hhinit, seq1]
  have hnblk : u2.nblk = (pad m).length / 64 := by
    rw [← hplen]
    exact congrArg (fun q : Sequencer => q.plen.toNat / 64) seq2
  have hpos : 0 < u2.nblk := by rw [hnblk, pad_length]; omega
  have seq3 : u3.sequencer = { s.sequencer with
      ph := .done, bi := BitVec.ofNat 56 ((pad m).length / 64), t := 64#7, plen := BitVec.ofNat 64 (pad m).length } := by
    rw [sequencer_runBlocks (congrArg Sequencer.ph seq2) (congrArg Sequencer.bi seq2) hpos (by omega) (Nat.le_refl _) hblocks, seq2,
      if_neg (Nat.lt_irrefl _), if_neg hpos.ne', hnblk]
  exact ⟨m, hm, by rw [sequencer_execFmt (congrArg Sequencer.ph seq3) hfmt, seq3]⟩

end

end Sys2Proof.Machine
end

section
/-! What a step can do to the memories (20_memory.md R61, R72): no command writes `MSG`, and `PMSG` is written by the one command that
leaves `IDLE`. -/

namespace Sys2Proof.Machine

/-! ### `MSG` -/

/-- The message, its length and the parameter are no command's destination. -/
theorem commandCase_keeps_message {s t : State} {i : Instr} (h : CommandCase s i t) :
    t.msg = s.msg ∧ t.mlen = s.mlen ∧ t.msgCap = s.msgCap := by
  cases h <;> exact ⟨rfl, rfl, rfl⟩

theorem commandChain_keeps_message {s t : State} (h : CommandChain s t) :
    t.msg = s.msg ∧ t.mlen = s.mlen ∧ t.msgCap = s.msgCap := by
  induction h with
  | refl => exact ⟨rfl, rfl, rfl⟩
  | tail _ hc ih =>
    obtain ⟨i, hc⟩ := hc
    obtain ⟨hmsg, hmlen, hcap⟩ := commandCase_keeps_message hc
    obtain ⟨hmsg', hmlen', hcap'⟩ := ih
    exact ⟨hmsg.trans hmsg', hmlen.trans hmlen', hcap.trans hcap'⟩

theorem acceptWord_keeps_message {w : CommandWord} {s t : State} (h : acceptWord w s = .next t) :
    t.msg = s.msg ∧ t.mlen = s.mlen ∧ t.msgCap = s.msgCap := by
  obtain ⟨-, rfl⟩ | ⟨-, e, -, rfl⟩ | ⟨-, i, -, he⟩ := acceptWord_next h
  · exact ⟨rfl, rfl, rfl⟩
  · exact ⟨rfl, rfl, rfl⟩
  · exact commandChain_keeps_message (commandChain_of_exec he)

/-! ### `PMSG` -/

/-- What a step other than reset can do to the padded message: keep it and not enter `IDLE`, or, as `PAD` and `HASH` do in `IDLE`,
store one and leave `IDLE`. -/
inductive PaddedCase (s t : State) : Prop where
  | kept : t.pmsg = s.pmsg → t.plen = s.plen → (t.ph = .idle → s.ph = .idle) → PaddedCase s t
  | stored : s.ph = .idle → t.ph = .padded ∨ t.ph = .final → PaddedCase s t

theorem PaddedCase.of_same {s t : State} (hpmsg : t.pmsg = s.pmsg) (hplen : t.plen = s.plen) (hph : t.ph = s.ph) :
    PaddedCase s t := .kept hpmsg hplen fun h => hph ▸ h

/-- A command that stores nothing and sets the phase to one that is not `IDLE`. -/
theorem PaddedCase.of_ne_idle {s t : State} (hpmsg : t.pmsg = s.pmsg) (hplen : t.plen = s.plen) (hph : t.ph ≠ .idle) :
    PaddedCase s t := .kept hpmsg hplen fun h => absurd h hph

theorem phaseAfterAcc_ne_idle (s : State) : phaseAfterAcc s ≠ .idle := by
  unfold phaseAfterAcc
  split <;> simp

theorem paddedCase_of_commandCase {s t : State} {i : Instr} (h : CommandCase s i t) : PaddedCase s t := by
  cases h with
  | pad m hph hm => exact .stored hph (.inl rfl)
  | discarded | rnd => exact .of_same rfl rfl rfl
  | acc => exact .of_ne_idle rfl rfl (phaseAfterAcc_ne_idle s)
  | badPhase | hinit | winit | blkOutOfRange | blkBadIndex | blk | sched | rndBadIndex | fmt =>
    exact .of_ne_idle rfl rfl (by simp)

theorem hashEffect_ph {s t : State} (hph : s.ph = .idle) (h : hashEffect s = .next t) : t.ph = .final := by
  obtain ⟨m, -, hseq⟩ := sequencer_hashEffect hph h
  exact congrArg Sequencer.ph hseq

theorem paddedCase_of_acceptWord {w : CommandWord} {s t : State} (h : acceptWord w s = .next t) : PaddedCase s t := by
  obtain ⟨-, rfl⟩ | ⟨-, e, -, rfl⟩ | ⟨-, i, -, he⟩ := acceptWord_next h
  · exact .of_same rfl rfl rfl
  · exact .of_ne_idle rfl rfl (by simp)
  · obtain hc | ⟨-, hph, hhash⟩ := exec_cases he
    · exact paddedCase_of_commandCase hc
    · exact .stored hph (.inr (hashEffect_ph hph hhash))

theorem paddedCase_of_serveAction {a : HostAction} {s t : State} (hreset : a ≠ .reset) (h : serveAction a s = .next t) :
    PaddedCase s t := by
  cases a with
  | command w => exact paddedCase_of_acceptWord h
  | reset => exact absurd rfl hreset
  | writeMsg a b =>
    obtain ⟨-, rfl⟩ := hostWriteMsg_next h
    exact .of_same rfl rfl rfl
  | writeMlen v => cases h; exact .of_same rfl rfl rfl
  | readByte space a => exact serveRead_next h ▸ .of_same rfl rfl rfl
  | readReg r => cases h; exact .of_same rfl rfl rfl

theorem paddedCase_of_step {s t : State} (hreset : ∀ rest, s.port ≠ .reset :: rest) (h : step s = .next t) :
    PaddedCase s t := by
  cases hport : s.port with
  | nil =>
    rw [step_of_port_nil hport] at h
    cases h
    exact .of_same rfl rfl rfl
  | cons a rest =>
    rw [step_of_port_cons hport] at h
    have ha : a ≠ .reset := fun ha => hreset rest (ha ▸ hport)
    cases paddedCase_of_serveAction ha h with
    | kept hpmsg hplen hph => exact .kept hpmsg hplen hph
    | stored hph ht => exact .stored hph ht

/-! ### `PAD` and `HASH` -/

/-- Each is legal in `IDLE` only, and leaves it. -/
theorem exec_pad_or_hash_ph {i : Instr} {s t : State} (hi : i = .pad ∨ i = .hash) (h : exec i s = .next t) :
    (s.ph = .idle → t.ph = .padded ∨ t.ph = .final) ∧ (s.ph ≠ .idle → t.ph = .fault) := by
  have hallows : s.allows i ↔ s.ph = .idle := by
    obtain rfl | rfl := hi <;> exact Iff.rfl
  obtain hc | ⟨-, hph, hhash⟩ := exec_cases h
  · cases hc with
    | discarded i hf => exact ⟨fun hidle => by simp [hf] at hidle, fun _ => hf⟩
    | badPhase i hf hnot => exact ⟨fun hidle => absurd (hallows.2 hidle) hnot, fun _ => rfl⟩
    | pad m hph hm => exact ⟨fun _ => .inl rfl, fun hne => absurd hph hne⟩
    | hinit | winit | blkOutOfRange | blkBadIndex | blk | sched | rndBadIndex | rnd | acc | fmt => simp at hi
  · exact ⟨fun _ => .inr (hashEffect_ph hph hhash), fun hne => absurd hph hne⟩

theorem acceptWord_pad_or_hash_ph {w : CommandWord} {s t : State} (hw : decode w = .ok .pad ∨ decode w = .ok .hash)
    (h : acceptWord w s = .next t) : (s.ph = .idle → t.ph = .padded ∨ t.ph = .final) ∧ (s.ph ≠ .idle → t.ph = .fault) := by
  obtain ⟨hf, rfl⟩ | ⟨-, e, he, -⟩ | ⟨-, i, hi, he⟩ := acceptWord_next h
  · exact ⟨fun hidle => by simp [hf] at hidle, fun _ => hf⟩
  · simp [he] at hw
  · exact exec_pad_or_hash_ph (by simpa [hi] using hw) he

/-- Settles O47: commands keep the message; every step but reset is a `PaddedCase`; and `exec_pad_or_hash_ph`, which needs that the
expansion of `HASH` takes no fault. -/
theorem memoriesAreImmutable : Obligations.MemoriesAreImmutable := by
  unfold Obligations.MemoriesAreImmutable
  refine ⟨fun s t w rest hport h => ?message, fun s t hne hreset h => ?outsideIdle, fun s t w rest hport h hw => ?padOrHash,
    fun s t hidle hreset h ht => ?inIdle⟩
  case message =>
    rw [step_of_port_cons hport] at h
    exact acceptWord_keeps_message (s := s.setPort rest) h
  case outsideIdle =>
    cases paddedCase_of_step hreset h with
    | kept hpmsg hplen hph => exact ⟨hpmsg, hplen, fun ht => hne (hph ht)⟩
    | stored hph => exact absurd hph hne
  case padOrHash =>
    rw [step_of_port_cons hport] at h
    exact acceptWord_pad_or_hash_ph (s := s.setPort rest) hw h
  case inIdle =>
    cases paddedCase_of_step hreset h with
    | kept hpmsg hplen => exact ⟨hpmsg, hplen⟩
    | stored _ hleft => obtain hph | hph := hleft <;> simp [hph] at ht

end Sys2Proof.Machine
end

section
/-! The encoding (30_encoding.md R90 to R98), mnemonic by mnemonic: `Mnemonic.command` gives the command of a mnemonic with an operand
field, and the encoder, the decoder, the opcode map and the assembler each have one equation about it. -/

namespace Sys2Proof

open Machine

/-! ### The command of a mnemonic -/

/-- The command of a mnemonic with an operand field; format N has no operand and ignores it (R92, R94). -/
def Mnemonic.command : Mnemonic → Index → Instr
  | .PAD, _ => .pad
  | .HINIT, _ => .hinit
  | .WINIT, _ => .winit
  | .BLK, low => .blk low
  | .SCHED, _ => .sched
  | .RND, low => .rnd low
  | .ACC, _ => .acc
  | .FMT, _ => .fmt
  | .HASH, _ => .hash

/-- An operand field that the mnemonic's format admits: zero in format N (R91, R92). -/
abbrev Mnemonic.Admits (m : Mnemonic) (low : Index) : Prop := m.format = .n → low = 0#56

@[simp] theorem mnemonic_command (m : Mnemonic) (low : Index) : (m.command low).mnemonic = m := by cases m <;> rfl

theorem exists_eq_command (i : Instr) : ∃ m : Mnemonic, ∃ low, m.Admits low ∧ i = m.command low := by
  cases i with
  | blk idx => exact ⟨.BLK, idx, nofun, rfl⟩
  | rnd idx => exact ⟨.RND, idx, nofun, rfl⟩
  | pad => exact ⟨.PAD, 0#56, fun _ => rfl, rfl⟩
  | hinit => exact ⟨.HINIT, 0#56, fun _ => rfl, rfl⟩
  | winit => exact ⟨.WINIT, 0#56, fun _ => rfl, rfl⟩
  | sched => exact ⟨.SCHED, 0#56, fun _ => rfl, rfl⟩
  | acc => exact ⟨.ACC, 0#56, fun _ => rfl, rfl⟩
  | fmt => exact ⟨.FMT, 0#56, fun _ => rfl, rfl⟩
  | hash => exact ⟨.HASH, 0#56, fun _ => rfl, rfl⟩

/-! ### Opcodes -/

theorem opcode_range (m : Mnemonic) : 1 ≤ m.opcode.toNat ∧ m.opcode.toNat ≤ 9 := by cases m <;> decide

theorem format_eq_n_iff (m : Mnemonic) : m.format = .n ↔ m.opcode.toNat ∈ [0x01, 0x02, 0x03, 0x05, 0x07, 0x08, 0x09] := by
  cases m <;> decide

theorem exists_opcode_of_range : ∀ op : BitVec 8, 1 ≤ op.toNat → op.toNat ≤ 9 → ∃ r ∈ opcodeMap, op = r.mnemonic.opcode := by
  decide

/-- Every opcode is a mnemonic's or unassigned, as R95 (a) lists the unassigned ones. -/
theorem opcode_cases (op : BitVec 8) :
    (∃ m : Mnemonic, op = m.opcode) ∨ ((∀ m : Mnemonic, op ≠ m.opcode) ∧ (op.toNat = 0 ∨ 0x0A ≤ op.toNat)) := by
  by_cases hop : ∃ m : Mnemonic, op = m.opcode
  · exact .inl hop
  · refine .inr ⟨not_exists.1 hop, ?_⟩
    by_contra hrange
    obtain ⟨r, -, hr⟩ := exists_opcode_of_range op (by omega) (by omega)
    exact hop ⟨r.mnemonic, hr⟩

/-! ### The fields of a word -/

@[simp] theorem joinFields_inj {op op' : BitVec 8} {low low' : Index} :
    joinFields op low = joinFields op' low' ↔ op = op' ∧ low = low' := by
  constructor
  · intro h
    simpa using congrArg splitWord h
  · rintro ⟨rfl, rfl⟩
    rfl

@[simp] theorem extractLsb'_op_joinFields (op : BitVec 8) (low : Index) : (joinFields op low).extractLsb' 56 8 = op :=
  BitVec.extractLsb'_append_eq_left

@[simp] theorem extractLsb'_low_joinFields (op : BitVec 8) (low : Index) : (joinFields op low).extractLsb' 0 56 = low :=
  BitVec.extractLsb'_append_eq_right

theorem joinFields_and (op op' : BitVec 8) (low low' : Index) :
    joinFields op low &&& joinFields op' low' = joinFields (op &&& op') (low &&& low') :=
  BitVec.and_append

theorem joinFields_toNat (op : BitVec 8) (low : Index) : (joinFields op low).toNat = op.toNat * 2 ^ 56 + low.toNat := by
  rw [joinFields, BitVec.toNat_append, ← Nat.shiftLeft_add_eq_or_of_lt low.isLt, Nat.shiftLeft_eq]

/-! ### Encoder and decoder -/

theorem encode_command {m : Mnemonic} {low : Index} (h : m.Admits low) : encode (m.command low) = joinFields m.opcode low := by
  cases m with
  | BLK => rfl
  | RND => rfl
  | _ => rw [h rfl]; rfl

theorem decode_opcode (m : Mnemonic) (low : Index) : decode (joinFields m.opcode low) =
    if m.Admits low then .ok (m.command low) else .error (.lowBitsSet m.opcode low) := by
  rw [decode, splitWord_joinFields]
  cases m <;> simp [decodeFields, formatN, Mnemonic.opcode, Mnemonic.format, Mnemonic.command]

theorem decode_command {m : Mnemonic} {low : Index} (h : m.Admits low) :
    decode (joinFields m.opcode low) = .ok (m.command low) := by rw [decode_opcode, if_pos h]

theorem decode_unassignedOpcode {op : BitVec 8} (low : Index) (h : ∀ m : Mnemonic, op ≠ m.opcode) :
    decode (joinFields op low) = .error (.unassignedOpcode op) := by
  rw [decode, splitWord_joinFields]
  exact (if_neg (h .PAD)).trans <| (if_neg (h .HINIT)).trans <| (if_neg (h .WINIT)).trans <| (if_neg (h .BLK)).trans <|
    (if_neg (h .SCHED)).trans <| (if_neg (h .RND)).trans <| (if_neg (h .ACC)).trans <| (if_neg (h .FMT)).trans <|
    if_neg (h .HASH)

theorem decode_encode (i : Instr) : decode (encode i) = .ok i := by
  obtain ⟨m, low, h, rfl⟩ := exists_eq_command i
  rw [encode_command h, decode_command h]

/-- R96: at most one word decodes to a command, and it is the command's own. -/
theorem decode_eq_ok_iff {w : CommandWord} {i : Instr} : decode w = .ok i ↔ encode i = w := by
  constructor
  · obtain ⟨op, low, rfl⟩ : ∃ op low, w = joinFields op low := ⟨_, _, (joinFields_splitWord w).symm⟩
    intro hi
    obtain ⟨m, rfl⟩ | ⟨hop, -⟩ := opcode_cases op
    · rw [decode_opcode] at hi
      split at hi
      · next h =>
        cases hi
        exact encode_command h
      · cases hi
    · rw [decode_unassignedOpcode low hop] at hi
      cases hi
  · rintro rfl
    exact decode_encode i

/-- R95 in the fields of a word. -/
theorem decode_error_iff (op : BitVec 8) (low : Index) : (∃ e, decode (joinFields op low) = .error e) ↔
    (op.toNat = 0 ∨ 0x0A ≤ op.toNat) ∨ (op.toNat ∈ [0x01, 0x02, 0x03, 0x05, 0x07, 0x08, 0x09] ∧ low ≠ 0#56) := by
  obtain ⟨m, rfl⟩ | ⟨hop, hunassigned⟩ := opcode_cases op
  · have hrange := opcode_range m
    rw [← format_eq_n_iff, decode_opcode, or_iff_right (by omega), ← Classical.not_imp]
    by_cases h : m.Admits low
    · rw [if_pos h]
      exact iff_of_false nofun (not_not_intro h)
    · rw [if_neg h]
      exact iff_of_true ⟨_, rfl⟩ h
  · exact iff_of_true ⟨_, decode_unassignedOpcode low hop⟩ (.inl hunassigned)

/-! ### The opcode map and the assembler -/

theorem opcodeRow_eq : ∀ r ∈ opcodeMap, r.bits = joinFields r.mnemonic.opcode 0#56 ∧
    r.mask = joinFields (BitVec.allOnes 8) (if r.mnemonic.format = .n then BitVec.allOnes 56 else 0#56) := by decide

theorem opcodeRow_eq_of_mnemonic : ∀ r ∈ opcodeMap, ∀ r' ∈ opcodeMap, r.mnemonic = r'.mnemonic → r = r' := by decide

theorem selects_joinFields {r : OpcodeRow} (hr : r ∈ opcodeMap) (op : BitVec 8) (low : Index) :
    r.selects (joinFields op low) = true ↔ op = r.mnemonic.opcode ∧ r.mnemonic.Admits low := by
  obtain ⟨hbits, hmask⟩ := opcodeRow_eq r hr
  rw [OpcodeRow.selects, hbits, hmask, joinFields_and, beq_iff_eq, joinFields_inj, BitVec.and_allOnes]
  by_cases hn : r.mnemonic.format = .n
  · rw [if_pos hn, BitVec.and_allOnes]
    simp [hn]
  · simp [hn]

theorem decode_mnemonic_iff (m : Mnemonic) (op : BitVec 8) (low : Index) :
    (∃ i, decode (joinFields op low) = .ok i ∧ i.mnemonic = m) ↔ op = m.opcode ∧ m.Admits low := by
  constructor
  · rintro ⟨i, hi, rfl⟩
    obtain ⟨m, low', h, rfl⟩ := exists_eq_command i
    rw [decode_eq_ok_iff, encode_command h, joinFields_inj] at hi
    obtain ⟨rfl, rfl⟩ := hi
    simpa using h
  · rintro ⟨rfl, h⟩
    exact ⟨m.command low, decode_command h, mnemonic_command m low⟩

theorem assemble_eq (l : SourceLine) : l.assemble =
    if l.wf then some (l.mnemonic.command (BitVec.ofNat 56 (l.operand.getD 0))) else none := by
  obtain ⟨m, operand⟩ := l
  cases m <;> cases operand <;> simp [SourceLine.assemble, SourceLine.wf, Mnemonic.format, Mnemonic.command]

/-- A well-formed line's operand fits the operand field, and its format admits it. -/
theorem operand_of_wf {l : SourceLine} (h : l.wf = true) :
    l.operand.getD 0 < 2 ^ 56 ∧ l.mnemonic.Admits (BitVec.ofNat 56 (l.operand.getD 0)) := by
  obtain ⟨m, operand⟩ := l
  cases operand <;> cases hm : m.format <;> simp_all [SourceLine.wf]

/-! ### The obligations -/

/-- Settles O2, by the equations of the encoder and the decoder on `Mnemonic.command`. -/
theorem decodeEncodeAgree : Obligations.DecodeEncodeAgree := decode_encode

/-- Settles O3: a word decodes to a command exactly when it is that command's word. -/
theorem everyWordIsOneCommandOrIllegal : Obligations.EveryWordIsOneCommandOrIllegal := by
  unfold Obligations.EveryWordIsOneCommandOrIllegal
  intro w
  simp only [← decode_eq_ok_iff, ne_eq]
  cases hw : decode w with
  | ok i => exact .inl ⟨i, rfl, fun j => by simp [eq_comm]⟩
  | error e => exact .inr ⟨⟨e, rfl⟩, fun j => by simp⟩

/-- Settles O4: a row selects, and the decoder names its mnemonic, for the same opcode and operand fields; the rows are disjoint because
a word decodes to one command. -/
theorem opcodeMapAgreesWithDecoder : Obligations.OpcodeMapAgreesWithDecoder := by
  unfold Obligations.OpcodeMapAgreesWithDecoder
  have hselects : ∀ r ∈ opcodeMap, ∀ w, r.selects w = true ↔ ∃ i, decode w = .ok i ∧ i.mnemonic = r.mnemonic := by
    intro r hr w
    rw [← joinFields_splitWord w, selects_joinFields hr, decode_mnemonic_iff]
  refine ⟨rfl, fun r hr r' hr' w h h' => ?_, hselects⟩
  obtain ⟨i, hi, hm⟩ := (hselects r hr w).1 h
  obtain ⟨i', hi', hm'⟩ := (hselects r' hr' w).1 h'
  obtain rfl : i = i' := by simpa [hi] using hi'
  exact opcodeRow_eq_of_mnemonic r hr r' hr' (hm.symm.trans hm')

/-- Settles O5, by `decode_error_iff` on the word's fields and `acceptWord_of_error`. -/
theorem illegalWordsFault : Obligations.IllegalWordsFault := by
  unfold Obligations.IllegalWordsFault
  refine ⟨fun w => ?_, fun s w rest e hport hph he => ?_, ⟨_, rfl⟩, ⟨_, rfl⟩⟩
  · rw [← joinFields_splitWord w, decode_error_iff, extractLsb'_op_joinFields, extractLsb'_low_joinFields]
  · rw [step_of_port_cons hport]
    exact acceptWord_of_error (s := s.setPort rest) hph he

/-- Settles O6: the command of a well-formed line has the opcode and the operand as its word's fields. -/
theorem assemblerLinesEncode : Obligations.AssemblerLinesEncode := by
  unfold Obligations.AssemblerLinesEncode
  refine ⟨fun l => by cases hwf : l.wf <;> simp [assemble_eq, hwf], fun l i h => ?_⟩
  obtain ⟨hwf, rfl⟩ : l.wf = true ∧ l.mnemonic.command (BitVec.ofNat 56 (l.operand.getD 0)) = i := by
    simpa [assemble_eq] using h
  obtain ⟨hlt, hadmits⟩ := operand_of_wf hwf
  refine ⟨mnemonic_command _ _, ?_⟩
  rw [encode_command hadmits, joinFields_toNat, BitVec.toNat_ofNat, Nat.mod_eq_of_lt hlt]

/-- Settles O1: each of the ten words is the word of its command. -/
theorem specWordsDecode : Obligations.SpecWordsDecode :=
  ⟨decode_encode .pad, decode_encode .hinit, decode_encode .winit, decode_encode (.blk 1#56),
    decode_encode (.blk 72057594037927935#56), decode_encode .sched, decode_encode (.rnd 63#56), decode_encode .acc,
    decode_encode .fmt, decode_encode .hash⟩

/-! ### A step -/

/-- R217: in `FAULT` a command changes nothing. -/
theorem exec_of_fault (i : Instr) {s : State} (h : s.ph = .fault) : exec i s = .next s := by
  cases i <;> exact whenLegal_in_fault h

/-- Settles O26: a word that decodes runs its command, in `FAULT` too, where both the word and the command change nothing. -/
theorem stepRunsDecodedCommand : Obligations.StepRunsDecodedCommand := by
  unfold Obligations.StepRunsDecodedCommand
  refine ⟨fun s => step_of_port_nil, fun s w rest i hport hi => ?_, fun s i => exec_of_fault i⟩
  rw [step_of_port_cons hport]
  by_cases hf : s.ph = .fault
  · exact (acceptWord_of_fault (s := s.setPort rest) hf).trans (exec_of_fault i (s := s.setPort rest) hf).symm
  · exact acceptWord_of_ok (s := s.setPort rest) hf hi

end Sys2Proof
end

section
/-! The word arithmetic and the bit mixers bit by bit, and the two tables (R122 to R132). -/

namespace Sys2Proof.Machine

theorem add32_toNat (x y : Word) : (add32 x y).toNat = (x.toNat + y.toNat) % 2 ^ 32 := BitVec.toNat_add x y

theorem shr_toNat (x : Word) (n : Nat) : (shr x n).toNat = x.toNat / 2 ^ n := by
  rw [shr, BitVec.toNat_ushiftRight, Nat.shiftRight_eq_div_pow]

theorem shr_getLsbD (x : Word) (n i : Nat) : (shr x n).getLsbD i = x.getLsbD (i + n) := by
  rw [shr, BitVec.getLsbD_ushiftRight, Nat.add_comm]

/-- A bit that stays below the word's end comes from the right shift; one that passes it comes back in through the left shift. -/
theorem rotr_getLsbD (x : Word) {n i : Nat} (hn : n < 32) (hi : i < 32) :
    (rotr x n).getLsbD i = x.getLsbD ((i + n) % 32) := by
  rw [rotr, BitVec.getLsbD_or, BitVec.getLsbD_ushiftRight, BitVec.getLsbD_shiftLeft, Nat.add_comm n i]
  by_cases hin : i + n < 32
  · have hleft : i < 32 - n := by omega
    simp [Nat.mod_eq_of_lt hin, hleft]
  · have hright : x.getLsbD (i + n) = false := BitVec.getLsbD_of_ge x _ (by omega)
    have hleft : ¬ i < 32 - n := by omega
    have hwrap : i - (32 - n) = (i + n) % 32 := by omega
    simp [hright, hleft, hi, hwrap]

theorem choice_getLsbD (x y z : Word) {i : Nat} (hi : i < 32) :
    (choice x y z).getLsbD i = if x.getLsbD i then y.getLsbD i else z.getLsbD i := by
  rw [choice, BitVec.getLsbD_xor, BitVec.getLsbD_and, BitVec.getLsbD_and, BitVec.getLsbD_not]
  cases x.getLsbD i <;> simp [hi]

theorem xor_of_ands_eq_majority (a b c : Bool) :
    (((a && b) ^^ (a && c)) ^^ (b && c)) = decide (2 ≤ a.toNat + b.toNat + c.toNat) := by
  revert a b c
  decide

theorem majority_getLsbD (x y z : Word) (i : Nat) : (majority x y z).getLsbD i =
    decide (2 ≤ (x.getLsbD i).toNat + (y.getLsbD i).toNat + (z.getLsbD i).toNat) := by
  rw [← xor_of_ands_eq_majority, majority]
  simp only [BitVec.getLsbD_xor, BitVec.getLsbD_and]

/-- Settles O9: a sigma's bit is the exclusive or of the bits that its rotations and its shift bring to that place. -/
theorem sigmaBits : Obligations.SigmaBits := by
  unfold Obligations.SigmaBits
  intro x i hi
  have hrotr (n : Nat) (hn : n < 32) := rotr_getLsbD x hn hi
  refine ⟨?_, ?_, ?_, ?_⟩
  · rw [sigma0, BitVec.getLsbD_xor, BitVec.getLsbD_xor, hrotr 7 (by decide), hrotr 18 (by decide), shr_getLsbD]
  · rw [sigma1, BitVec.getLsbD_xor, BitVec.getLsbD_xor, hrotr 17 (by decide), hrotr 19 (by decide), shr_getLsbD]
  · rw [bigSigma0, BitVec.getLsbD_xor, BitVec.getLsbD_xor, hrotr 2 (by decide), hrotr 13 (by decide), hrotr 22 (by decide)]
  · rw [bigSigma1, BitVec.getLsbD_xor, BitVec.getLsbD_xor, hrotr 6 (by decide), hrotr 11 (by decide), hrotr 25 (by decide)]

/-- Settles O7, by what each of the three operations does. -/
theorem wordArithmetic : Obligations.WordArithmetic :=
  ⟨add32_toNat, fun x _ _ hn _ hi => rotr_getLsbD x (Nat.lt_succ_of_le hn) hi, shr_toNat⟩

/-- Settles O8: `kTable` is its four parts of sixteen words in order. -/
theorem tablesHoldTheSpecWords : Obligations.TablesHoldTheSpecWords := ⟨rfl, rfl, rfl, rfl, rfl, rfl⟩

/-- Settles O10: the first word's bit selects, and an exclusive or of the three pairs votes. -/
theorem choiceAndMajorityBits : Obligations.ChoiceAndMajorityBits :=
  fun x y z i hi => ⟨choice_getLsbD x y z hi, majority_getLsbD x y z i⟩

end Sys2Proof.Machine
end

section
/-! Where a step stops (41_padder.md R145, 10_state.md R51, 20_memory.md R69). From a state of the sequencer's invariant no command but
`PAD` and `HASH` stops, in whatever phase it is presented: `BLK` reads a block that the padded message covers, and every other command
answers a next state, be it a fault entry. So `HASH` stops only where the `PAD` that it begins with does. -/

namespace Sys2Proof.Machine

/-! ### Commands that answer -/

/-- From every state of the invariant `f` answers a next state, which keeps the invariant. -/
def Answers (f : State → Result) : Prop := ∀ s : State, s.SeqInv → ∃ t, f s = .next t ∧ t.SeqInv

theorem answers_next : Answers .next := fun s hs => ⟨s, rfl, hs⟩

theorem Answers.andThen {f g : State → Result} (hf : Answers f) (hg : Answers g) : Answers fun s => andThen (f s) g := by
  intro s hs
  obtain ⟨t, hft, ht⟩ := hf s hs
  obtain ⟨u, hgu, hu⟩ := hg t ht
  exact ⟨u, by simp only [hft, andThen_next, hgu], hu⟩

/-- Past the phase test there is a next state whatever the effect does. -/
theorem exists_next_whenLegal {i : Instr} {legal : Bool} {effect : State → Result} {s : State}
    (heffect : legal = true → ∃ t, effect s = .next t) : ∃ t, whenLegal i legal effect s = .next t := by
  by_cases hf : s.ph = .fault
  · exact ⟨s, whenLegal_in_fault hf⟩
  · cases legal with
    | true => rw [whenLegal_of_legal hf rfl]; exact heffect rfl
    | false => exact ⟨_, whenLegal_of_not_legal hf rfl⟩

/-- A block in range lies within the padded message, every byte of which has a value (42_block_parser.md R151). -/
theorem exists_readBytes_of_block {s : State} {i : Nat} (hpadded : s.paddedRules) (hheld : s.holdsPadded) (hi : i < s.nblk) :
    ∃ bs, s.pmsg.readBytes (64 * i) 64 = some bs := by
  obtain ⟨p, hp⟩ := Option.isSome_iff_exists.1 (hpadded hheld).2
  have hslice : 64 * i + 64 ≤ s.plen.toNat := by
    rw [State.nblk] at hi
    omega
  exact ⟨_, by simpa only [Nat.zero_add] using Memory.readBytes_slice hp hslice⟩

theorem exists_next_blkEffect {idx : Index} {s : State} (hpadded : s.paddedRules) (hheld : s.holdsPadded) :
    ∃ t, blkEffect idx s = .next t := by
  unfold blkEffect
  split
  · exact ⟨_, rfl⟩
  · next hr =>
    split
    · exact ⟨_, rfl⟩
    · obtain ⟨bs, hbs⟩ := exists_readBytes_of_block hpadded hheld (i := idx.toNat) (by simpa [idxOutOfRange] using hr)
      rw [blockStart, hbs]
      exact ⟨_, rfl⟩

theorem exists_next_rndEffect (idx : Index) (s : State) : ∃ t, rndEffect idx s = .next t := by
  unfold rndEffect
  split <;> exact ⟨_, rfl⟩

theorem exists_next_exec {i : Instr} {s : State} (hs : s.SeqInv) (hpad : i ≠ .pad) (hhash : i ≠ .hash) :
    ∃ t, exec i s = .next t := by
  obtain ⟨-, -, hpadded⟩ := hs
  cases i with
  | pad => exact absurd rfl hpad
  | hash => exact absurd rfl hhash
  | blk idx =>
    refine exists_next_whenLegal fun hb => exists_next_blkEffect hpadded ?_
    simp [State.holdsPadded, of_decide_eq_true hb]
  | rnd idx => exact exists_next_whenLegal fun _ => exists_next_rndEffect idx s
  | hinit => exact exists_next_whenLegal (effect := hinitEffect) fun _ => ⟨_, rfl⟩
  | winit => exact exists_next_whenLegal (effect := winitEffect) fun _ => ⟨_, rfl⟩
  | sched => exact exists_next_whenLegal (effect := schedEffect) fun _ => ⟨_, rfl⟩
  | acc => exact exists_next_whenLegal (effect := accEffect) fun _ => ⟨_, rfl⟩
  | fmt => exact exists_next_whenLegal (effect := fmtEffect) fun _ => ⟨_, rfl⟩

theorem answers_exec {i : Instr} (hpad : i ≠ .pad := by simp) (hhash : i ≠ .hash := by simp) : Answers (exec i) := by
  intro s hs
  obtain ⟨t, ht⟩ := exists_next_exec hs hpad hhash
  exact ⟨t, ht, seqInv_keptByStep.commandChain hs (commandChain_of_exec ht)⟩

/-! ### The expansion of `HASH` after its `PAD` -/

theorem answers_runRounds : ∀ n, Answers (runRounds n)
  | 0 => answers_next
  | n + 1 => (answers_runRounds n).andThen (answers_exec (i := .rnd (BitVec.ofNat 56 n)))

theorem answers_runBlock (i : Nat) : Answers (runBlock i) :=
  ((((answers_exec (i := .winit)).andThen (answers_exec (i := .blk (BitVec.ofNat 56 i)))).andThen
    (answers_exec (i := .sched))).andThen (answers_runRounds 64)).andThen (answers_exec (i := .acc))

theorem answers_runBlocks : ∀ n, Answers (runBlocks n)
  | 0 => answers_next
  | n + 1 => (answers_runBlocks n).andThen (answers_runBlock n)

/-- The rest of `HASH` answers whatever `PAD` has left. -/
theorem exists_next_hashEffect {s u : State} (hs : s.SeqInv) (hpad : exec .pad s = .next u) : ∃ t, hashEffect s = .next t := by
  have hu : u.SeqInv := seqInv_keptByStep.commandChain hs (commandChain_of_exec hpad)
  have hblocks : Answers fun t => runBlocks t.nblk t := fun t => answers_runBlocks t.nblk t
  obtain ⟨t, ht, -⟩ := (((answers_exec (i := .hinit)).andThen hblocks).andThen (answers_exec (i := .fmt))) u hu
  refine ⟨t, ?_⟩
  rw [hashEffect, show execPad s = .next u from hpad]
  exact ht

/-! ### `PAD` and `HASH` -/

/-- `PAD` in `IDLE` stops on an overlong message (R145) or an unwritten byte of it (R51), and on nothing else. -/
theorem padEffect_stops {s : State} (h : ∀ t, padEffect s ≠ .next t) :
    s.msgCap.toNat < s.mlen.toNat ∨ ∃ a, a < s.mlen.toNat ∧ s.msg.read a = none := by
  by_cases hcap : s.msgCap.toNat < s.mlen.toNat
  · exact .inl hcap
  · cases hread : s.msg.readBytes 0 s.mlen.toNat with
    | none =>
      obtain ⟨a, ha, hnone⟩ := Memory.readBytes_eq_none_iff.1 hread
      exact .inr ⟨a, ha, by simpa only [Nat.zero_add] using hnone⟩
    | some m => exact absurd (padEffect_of_message ⟨Nat.not_lt.1 hcap, hread⟩) (h _)

/-- The commands that stop: `PAD`, and `HASH` through the `PAD` that it begins with. -/
theorem exec_stops {i : Instr} {s : State} (hs : s.SeqInv) (h : ∀ t, exec i s ≠ .next t) :
    (i = .pad ∨ i = .hash) ∧ s.ph = .idle ∧
      (s.msgCap.toNat < s.mlen.toNat ∨ ∃ a, a < s.mlen.toNat ∧ s.msg.read a = none) := by
  have hpadOrHash : i = .pad ∨ i = .hash := by
    by_contra hne
    obtain ⟨hpad, hhash⟩ := not_or.1 hne
    obtain ⟨t, ht⟩ := exists_next_exec hs hpad hhash
    exact h t ht
  have hidle : s.ph = .idle := by
    by_contra hne
    have hnext : ∃ t, exec i s = .next t := by
      obtain rfl | rfl := hpadOrHash
      · exact exists_next_whenLegal (effect := padEffect) fun hb => absurd (of_decide_eq_true hb) hne
      · exact exists_next_whenLegal (effect := hashEffect) fun hb => absurd (of_decide_eq_true hb) hne
    obtain ⟨t, ht⟩ := hnext
    exact h t ht
  refine ⟨hpadOrHash, hidle, padEffect_stops fun u hu => ?_⟩
  have hpad : exec .pad s = .next u := (exec_pad_of_idle hidle).trans hu
  obtain rfl | rfl := hpadOrHash
  · exact h u hpad
  · obtain ⟨t, ht⟩ := exists_next_hashEffect hs hpad
    exact h t ((exec_hash_of_idle hidle).trans ht)

/-- A word on the command port stops only through the command it decodes to. -/
theorem acceptWord_stops {w : CommandWord} {s : State} (h : ∀ t, acceptWord w s ≠ .next t) :
    ∃ i, decode w = .ok i ∧ ∀ t, exec i s ≠ .next t := by
  have hf : s.ph ≠ .fault := fun hf => h s (acceptWord_of_fault hf)
  cases hdec : decode w with
  | error e => exact absurd (acceptWord_of_error hf hdec) (h _)
  | ok i => exact ⟨i, rfl, fun t ht => h t ((acceptWord_of_ok hf hdec).trans ht)⟩

/-! ### A step -/

/-- Settles O56, action by action: `exec_stops` for a command, `hostWriteMsg` and `hostReadByte` for the host's accesses to a memory; the
other actions always answer. -/
theorem stepStopsOnlyWhereTheSpecDoes : Obligations.StepStopsOnlyWhereTheSpecDoes := by
  unfold Obligations.StepStopsOnlyWhereTheSpecDoes
  intro s hs h
  cases hport : s.port with
  | nil => exact absurd (step_of_port_nil hport) (h s)
  | cons a rest =>
    cases a with
    | command w =>
      rw [step_of_port_cons hport] at h
      obtain ⟨i, hdec, hstop⟩ := acceptWord_stops (s := s.setPort rest) h
      obtain ⟨hi, hidle, hmsg⟩ := exec_stops (s := s.setPort rest) hs hstop
      refine .inl ⟨w, rest, rfl, ?_, hidle, hmsg⟩
      obtain rfl | rfl := hi
      · exact .inl hdec
      · exact .inr hdec
    | reset => exact absurd (step_of_port_cons hport) (h _)
    | writeMsg a b =>
      refine .inr (.inl ⟨a, b, rest, rfl, Nat.not_lt.1 fun ha => ?_⟩)
      exact h _ (step_writeMsg_of_lt hport ha)
    | writeMlen v => exact absurd (step_of_port_cons hport) (h _)
    | readByte space a =>
      refine .inr (.inr ⟨space, a, rest, rfl, or_iff_not_imp_left.2 fun ha => ?_⟩)
      cases hread : (s.memory space).read a with
      | none => rfl
      | some b => exact absurd (step_readByte_of_ok hport (hostReadByte_of_written (Nat.not_le.1 ha) hread)) (h _)
    | readReg r => exact absurd (step_of_port_cons hport) (h _)

end Sys2Proof.Machine
end

section
/-! The Padder and the command `PAD` (41_padder.md): the lengths in closed form, the padded message byte by byte, and what `PAD` stores
and leaves alone. -/

namespace Sys2Proof.Machine

/-! ### The fill count and the lengths -/

/-- The fill bytes bring the message and its mark to 56 bytes modulo 64 (R141). -/
theorem fillCount_mod (len : Nat) : (len + 1 + fillCount len) % 64 = 56 := by
  rw [fillCount]
  omega

/-- R143 in the integers, where `55 - L` does not stop at zero. -/
theorem fillCount_eq_emod (len : Nat) : (fillCount len : Int) = (55 - (len : Int)) % 64 := by
  rw [fillCount]
  omega

theorem fillCount_lt (len : Nat) : fillCount len < 64 := Nat.mod_lt _ (by decide)

theorem fillCount_le_of_mod {len z : Nat} (h : (len + 1 + z) % 64 = 56) : fillCount len ≤ z := by
  rw [fillCount]
  omega

theorem be64bytes_length (v : BitVec 64) : (be64bytes v).length = 8 := rfl

/-- The four parts of the padded message, counted. -/
theorem pad_length_eq_add (m : List Byte) : (pad m).length = m.length + 9 + fillCount m.length := by
  simp only [pad, List.length_append, List.length_replicate, be64bytes_length, List.length_singleton]
  omega

theorem pad_blocks (m : List Byte) : (pad m).length / 64 = (m.length + 8) / 64 + 1 := by
  rw [pad_length, Nat.mul_div_cancel_left _ (by decide)]

/-! ### The bytes -/

theorem pad_take (m : List Byte) : (pad m).take m.length = m := by
  simp only [pad, List.append_assoc, List.take_left]

theorem pad_getElem?_mark (m : List Byte) : (pad m)[m.length]? = some Config.padMark := by
  simp [pad]

/-- Between the mark and the eight length bytes. -/
theorem pad_getElem?_fill {m : List Byte} {k : Nat} (hlo : m.length + 1 ≤ k) (hhi : k < (pad m).length - 8) :
    (pad m)[k]? = some Config.padFill := by
  rw [pad_length_eq_add] at hhi
  have hfill : k - (m.length + 1) < fillCount m.length := by omega
  rw [pad, List.getElem?_append_left (by simp; omega), List.getElem?_append_right (by simpa using hlo),
    List.getElem?_replicate_of_lt (by simpa using hfill)]

theorem pad_getElem?_length (m : List Byte) (j : Nat) :
    (pad m)[(pad m).length - 8 + j]? = (be64bytes (BitVec.ofNat 64 (8 * m.length)))[j]? := by
  have hstart : (pad m).length - 8 =
      (m ++ [Config.padMark] ++ List.replicate (fillCount m.length) Config.padFill).length := by
    rw [pad, List.length_append, be64bytes_length, Nat.add_sub_cancel]
  rw [hstart, pad, List.getElem?_append_right (Nat.le_add_right _ _), Nat.add_sub_cancel_left]

/-- Byte `j` of a number below `2^64`, the most significant first (R9, R64 (b)). -/
theorem be64bytes_ofNat_getElem? {n j : Nat} (hn : n < 2 ^ 64) (hj : j < 8) :
    (be64bytes (BitVec.ofNat 64 n))[j]? = some (BitVec.ofNat 8 (n / 2 ^ (56 - 8 * j))) := by
  have hbyte : (be64bytes (BitVec.ofNat 64 n))[j]? = some ((BitVec.ofNat 64 n).extractLsb' (56 - 8 * j) 8) := by
    interval_cases j <;> rfl
  rw [hbyte, BitVec.extractLsb', BitVec.toNat_ofNat, Nat.mod_eq_of_lt hn, Nat.shiftRight_eq_div_pow]

/-! ### The obligations about `pad` -/

/-- Settles O11: multiplied by 8, `fillCount_mod` and `fillCount_le_of_mod` are R141's bit length and its least count. -/
theorem padLengthClosedForms : Obligations.PadLengthClosedForms := by
  unfold Obligations.PadLengthClosedForms
  intro m
  have hmod := fillCount_mod m.length
  have hlt := fillCount_lt m.length
  have hlen := pad_length_eq_add m
  refine ⟨fillCount_eq_emod m.length, by omega, fun z hz => fillCount_le_of_mod (by omega), hlen, pad_length m, pad_blocks m,
    by omega, by omega, by omega, by omega⟩

/-- Settles O12: each byte by the part of `pad` that it lies in. -/
theorem padPostconditions : Obligations.PadPostconditions := by
  unfold Obligations.PadPostconditions
  intro m hm
  have hlen := pad_length m
  refine ⟨by omega, by omega, by omega, pad_take m, pad_getElem?_mark m, fun k => pad_getElem?_fill, fun j hj => ?_⟩
  rw [pad_getElem?_length, be64bytes_ofNat_getElem? (by omega) hj]

/-- Settles O13, by the closed forms of the length and of the block count. -/
theorem padBlockBoundaries : Obligations.PadBlockBoundaries := by
  unfold Obligations.PadBlockBoundaries
  intro m
  have hblocks := pad_blocks m
  refine ⟨fun h => by rw [pad_length, h], by omega, by omega, by omega, by omega, fun b => ?_⟩
  rw [pad_blocks, hblocks, List.length_append, List.length_singleton]
  split <;> omega

/-! ### The command -/

/-- `PAD` and `HASH` begin with the test of `MLEN` (R145). -/
theorem padEffect_of_overlong {s : State} (h : s.msgCap.toNat < s.mlen.toNat) :
    padEffect s = .refused .messageBeyondCapacity := if_pos h

theorem exec_pad_of_wrong_phase {s : State} (hidle : s.ph ≠ .idle) (hfault : s.ph ≠ .fault) :
    exec .pad s = .next (s.faulted .badPhase (encode .pad)) :=
  whenLegal_of_not_legal hfault (decide_eq_false hidle)

/-- Settles O37: `HASH` stops where the `PAD` that it begins with does. -/
theorem overlongMessageRefused : Obligations.OverlongMessageRefused := by
  unfold Obligations.OverlongMessageRefused
  intro s hidle hcap
  have hpad := padEffect_of_overlong hcap
  refine ⟨?_, ?_⟩
  · rw [exec_pad_of_idle hidle, hpad]
  · rw [exec_hash_of_idle hidle, hashEffect_of_idle hidle, hpad]
    simp only [andThen_refused]

/-- Settles O27: what was stored from address 0 up is read back, and no address from its length up is touched. -/
theorem padPadsTheMessage : Obligations.PadPadsTheMessage := by
  unfold Obligations.PadPadsTheMessage
  refine ⟨fun s m hidle hm => ?_, fun s => exec_pad_of_wrong_phase, decode_encode .pad, fun low hlow => ?_⟩
  · obtain ⟨-, hplen⟩ := pad_of_messageIs hm
    have hlen : m.length = s.mlen.toNat := Memory.readBytes_length hm.2
    refine ⟨_, (exec_pad_of_idle hidle).trans (padEffect_of_message hm), rfl, ?_, ?_, fun a ha => ?_, rfl⟩
    · rw [hplen, pad_length, hlen]
    · rw [hplen, Memory.readBytes_writeBytes]
    · rw [hplen] at ha
      exact Memory.read_writeBytes_outside _ _ (.inr (by omega))
  · exact (decode_error_iff 0x01#8 low).2 (.inr ⟨by decide, hlow⟩)

/-- Settles O39, case by case of what `PAD` can answer: discarded in `FAULT`, the phase fault, or the padded message stored. -/
theorem padFrame : Obligations.PadFrame := by
  unfold Obligations.PadFrame
  intro s t h
  cases commandCase_of_exec (by simp) h with
  | discarded _ hph => simp
  | badPhase _ hph _ => simp [hph]
  | pad m hph hm =>
    have houtside : ∀ m', s.msg.readBytes 0 s.mlen.toNat = some m' → ∀ a, (pad m').length ≤ a →
        (s.pmsg.writeBytes 0 (pad m)).read a = s.pmsg.read a := by
      intro m' hm' a ha
      obtain rfl : m = m' := Option.some.inj (hm.2.symm.trans hm')
      exact Memory.read_writeBytes_outside _ _ (.inr (by omega))
    simpa [hph] using houtside

end Sys2Proof.Machine
end

section
/-! The BlockParser and the command `BLK` (42_block_parser.md): the blocks of a byte sequence, and each answer that `BLK` can give. -/

namespace Sys2Proof.Machine

/-! ### The blocks of a sequence -/

theorem toBlock_getElem? {bs : List Byte} (h : 64 ≤ bs.length) {k : Nat} (hk : k < 64) : bs[k]? = some (toBlock bs)[k] := by
  rw [toBlock_getElem _ _ hk, List.getD_eq_getElem _ _ (hk.trans_le h), List.getElem?_eq_getElem]

theorem toBlock_toList {bs : List Byte} (h : 64 ≤ bs.length) : (toBlock bs).toList = bs.take 64 := by
  refine List.ext_getElem (by simp [h]) fun k hk _ => ?_
  have hlt : k < 64 := by simpa using hk
  rw [Vector.getElem_toList, toBlock_getElem _ _ hlt, List.getD_eq_getElem _ _ (hlt.trans_le h), List.getElem_take]

theorem block_of_lt {p : List Byte} {i : Nat} (h : i < p.length / 64) : block p i = some (toBlock (p.drop (64 * i))) := if_pos h

theorem block_of_le {p : List Byte} {i : Nat} (h : p.length / 64 ≤ i) : block p i = none := if_neg (Nat.not_lt.2 h)

/-- From the start of a block in range on there are its 64 bytes. -/
theorem le_length_drop_of_lt {p : List Byte} {i : Nat} (h : i < p.length / 64) : 64 ≤ (p.drop (64 * i)).length := by
  rw [List.length_drop]
  omega

/-- The bytes of block `i`, none where there is no such block. -/
def blockBytes (p : List Byte) (i : Nat) : List Byte := ((block p i).map Vector.toList).getD []

theorem blockBytes_of_lt {p : List Byte} {i : Nat} (h : i < p.length / 64) : blockBytes p i = (p.drop (64 * i)).take 64 := by
  simp only [blockBytes, block_of_lt h, Option.map_some, Option.getD_some, toBlock_toList (le_length_drop_of_lt h)]

/-- The first `n` blocks in order are the first `64 * n` bytes. -/
theorem flatMap_range_blockBytes {p : List Byte} : ∀ {n : Nat}, n ≤ p.length / 64 →
    (List.range n).flatMap (blockBytes p) = p.take (64 * n)
  | 0, _ => by simp
  | n + 1, h => by
    rw [List.range_succ, List.flatMap_append, flatMap_range_blockBytes (by omega), List.flatMap_singleton, blockBytes_of_lt h,
      Nat.mul_succ, List.take_add]

/-- Settles O14: a block is the slice of 64 bytes from its start, and by induction on their number the blocks are a prefix, here with
no byte left over. -/
theorem blocksCoverPaddedMessage : Obligations.BlocksCoverPaddedMessage := by
  unfold Obligations.BlocksCoverPaddedMessage
  intro p hp
  refine ⟨fun i hi => ⟨_, block_of_lt hi, fun k => ?_⟩, fun i => block_of_le, ?_⟩
  · rw [← List.getElem?_drop]
    exact toBlock_getElem? (le_length_drop_of_lt hi) k.isLt
  · have hall : p.length ≤ 64 * (p.length / 64) := by omega
    exact ((flatMap_range_blockBytes (Nat.le_refl _)).trans (List.take_of_length_le hall)).symm

/-! ### The command, test by test -/

section

variable {idx : Index} {s : State}

theorem exec_blk_of_wset (h : s.ph = .wset) : exec (.blk idx) s = blkEffect idx s :=
  whenLegal_of_legal (by simp [h]) (decide_eq_true h)

theorem exec_blk_of_wrong_phase (hph : s.ph ≠ .wset) (hfault : s.ph ≠ .fault) :
    exec (.blk idx) s = .next (s.faulted .badPhase (encode (.blk idx))) :=
  whenLegal_of_not_legal hfault (decide_eq_false hph)

theorem blkEffect_of_outOfRange (h : s.nblk ≤ idx.toNat) :
    blkEffect idx s = .next (s.faulted .outOfRange (encode (.blk idx))) := if_pos (decide_eq_true h)

theorem blkEffect_of_badIndex (hr : idx.toNat < s.nblk) (hi : idx ≠ s.bi) :
    blkEffect idx s = .next (s.faulted .badIndex (encode (.blk idx))) := by
  simp [blkEffect, idxOutOfRange, idxIsNotBlock, takeFault_eq, hr, hi]

theorem blkEffect_of_read {bs : List Byte} (hr : s.bi.toNat < s.nblk) (hbs : s.pmsg.readBytes (64 * s.bi.toNat) 64 = some bs) :
    blkEffect s.bi s = .next ((s.setBlkr (toBlock bs)).setPh .loaded) := by
  simp [blkEffect, idxOutOfRange, idxIsNotBlock, blockStart, hr, hbs]

theorem blkEffect_of_unwritten (hr : s.bi.toNat < s.nblk) (hbs : s.pmsg.readBytes (64 * s.bi.toNat) 64 = none) :
    blkEffect s.bi s = .fault (.unwrittenRead .pmsg (s.pmsg.firstUnwritten (64 * s.bi.toNat) 64)) := by
  simp [blkEffect, idxOutOfRange, idxIsNotBlock, blockStart, hr, hbs]

end

/-- Settles O30, clause by clause of the tests; a read block holds its bytes by `readBytes_eq_some_iff`, and the address that a stop
reports lies within the block by `firstUnwritten_spec`. -/
theorem blkLoadsTheBlock : Obligations.BlkLoadsTheBlock := by
  unfold Obligations.BlkLoadsTheBlock
  intro idx s
  refine ⟨decode_encode (.blk idx), fun hph hr hi bs hbs => ?_, fun hph hr => ?_, fun hph hr hi => ?_,
    exec_blk_of_wrong_phase, fun hph hr hi hbs => ?_⟩
  · subst hi
    obtain ⟨hlen, hread⟩ := Memory.readBytes_eq_some_iff.1 hbs
    refine ⟨_, (exec_blk_of_wset hph).trans (blkEffect_of_read hr hbs), fun k => ?_, rfl⟩
    rw [hread k k.isLt]
    exact toBlock_getElem? (Nat.le_of_eq hlen.symm) k.isLt
  · exact (exec_blk_of_wset hph).trans (blkEffect_of_outOfRange hr)
  · exact (exec_blk_of_wset hph).trans (blkEffect_of_badIndex hr hi)
  · subst hi
    obtain ⟨hlo, hhi, hread, -⟩ := Memory.firstUnwritten_spec hbs
    exact ⟨_, hlo, hhi, hread, (exec_blk_of_wset hph).trans (blkEffect_of_unwritten hr hbs)⟩

end Sys2Proof.Machine
end

section
/-! The MessageScheduler and the command `SCHED` (43_message_scheduler.md): the 64 words of a block's schedule, and each answer that
`SCHED` can give. -/

namespace Sys2Proof.Machine

/-! ### Words 0 to 15 -/

/-- The left part of a bit string counts in units of the right part's range. -/
theorem toNat_append_eq_add {m n : Nat} (x : BitVec m) (y : BitVec n) : (x ++ y).toNat = x.toNat * 2 ^ n + y.toNat := by
  rw [BitVec.toNat_append, ← Nat.shiftLeft_add_eq_or_of_lt y.isLt, Nat.shiftLeft_eq]

/-- Four bytes as digits in base `2^8`, the first the most significant (R161). -/
theorem be32_toNat (b0 b1 b2 b3 : Byte) :
    (be32 b0 b1 b2 b3).toNat = b0.toNat * 2 ^ 24 + b1.toNat * 2 ^ 16 + b2.toNat * 2 ^ 8 + b3.toNat := by
  simp only [be32, toNat_append_eq_add]
  omega

theorem schedule_getElem_of_lt (b : Vector Byte 64) (i : Fin 16) :
    (schedule b)[i.val] = be32 b[4 * i.val] b[4 * i.val + 1] b[4 * i.val + 2] b[4 * i.val + 3] := by
  have hlen : i.val < (blockWords b).length := (blockWords_length b).symm ▸ i.isLt
  rw [schedule_getElem, extendSchedule_getD 48 _ _ hlen, List.getD_eq_getElem _ _ hlen]
  exact List.getElem_ofFn _

/-! ### Words 16 to 63 -/

/-- Appending later words does not change what the recurrence gives: it reads the words 2, 7, 15 and 16 back only. -/
theorem scheduleWord_extendSchedule (n : Nat) {ws : List Word} {i : Nat} (hlo : 16 ≤ i) (hhi : i ≤ ws.length) :
    scheduleWord (extendSchedule n ws) i = scheduleWord ws i := by
  have hback : ∀ k, 0 < k → (extendSchedule n ws).getD (i - k) 0#32 = ws.getD (i - k) 0#32 :=
    fun k _ => extendSchedule_getD n ws (i - k) (by omega)
  simp (disch := decide) only [scheduleWord, hback]

/-- Each new word satisfies the recurrence on the finished list (R162, R164). -/
theorem extendSchedule_getD_new : ∀ (n : Nat) {ws : List Word} {i : Nat}, 16 ≤ ws.length → ws.length ≤ i → i < ws.length + n →
    (extendSchedule n ws).getD i 0#32 = scheduleWord (extendSchedule n ws) i
  | 0, _, _, _, hlo, hhi => absurd hhi (Nat.not_lt.2 hlo)
  | n + 1, ws, i, hws, hlo, hhi => by
    have hlen : (ws ++ [scheduleWord ws ws.length]).length = ws.length + 1 := List.length_append
    obtain rfl | hlt := hlo.eq_or_lt
    · rw [scheduleWord_extendSchedule (n + 1) hws (Nat.le_refl _), extendSchedule, extendSchedule_getD n _ _ (by omega)]
      simp
    · exact extendSchedule_getD_new n (by omega) (by omega) (by omega)

theorem schedule_recurrence (b : Vector Byte 64) (i : Nat) (hlo : 16 ≤ i) (hhi : i < 64) :
    (schedule b)[i] = sigma1 (schedule b)[i - 2] + (schedule b)[i - 7] + sigma0 (schedule b)[i - 15] + (schedule b)[i - 16] := by
  have hlen := blockWords_length b
  simp only [schedule_getElem]
  exact extendSchedule_getD_new 48 (by omega) (by omega) (by omega)

/-- The zero words of a zero block stay zero under the recurrence, as both small sigmas of zero are zero (R162). -/
theorem schedule_zero_block (i : Nat) (hi : i < 64) : (schedule (Vector.replicate 64 0#8))[i] = 0#32 := by
  induction i using Nat.strongRecOn with
  | ind i ih =>
    by_cases hlo : i < 16
    · rw [schedule_getElem_of_lt _ ⟨i, hlo⟩]
      simp [be32]
    · have hback : ∀ k, 0 < k → (schedule (Vector.replicate 64 0#8))[i - k] = 0#32 :=
        fun k _ => ih (i - k) (by omega) (by omega)
      rw [schedule_recurrence _ i (by omega) hi]
      simp (disch := decide) only [hback]
      rfl

/-- Settles O15: word `i` is `be32` of its four bytes, and `be32_toNat` reads it as a number. -/
theorem scheduleFirstWords : Obligations.ScheduleFirstWords := by
  unfold Obligations.ScheduleFirstWords
  intro b i
  rw [schedule_getElem_of_lt, be32_toNat]

/-- Settles O16, by `schedule_recurrence` and, for the zero block, strong induction along it. -/
theorem scheduleRecurrence : Obligations.ScheduleRecurrence := by
  unfold Obligations.ScheduleRecurrence
  exact ⟨schedule_recurrence, fun i => schedule_zero_block i i.isLt⟩

/-! ### The command -/

section

variable {s : State}

theorem exec_sched_of_loaded (h : s.ph = .loaded) : exec .sched s = .next { s with
    w := schedule s.blkr, t := 0#7, ph := .rounds, written := { s.written with w := true } } :=
  whenLegal_of_legal (by simp [h]) (decide_eq_true h)

theorem exec_sched_of_wrong_phase (hph : s.ph ≠ .loaded) (hfault : s.ph ≠ .fault) :
    exec .sched s = .next (s.faulted .badPhase (encode .sched)) :=
  whenLegal_of_not_legal hfault (decide_eq_false hph)

end

/-- Settles O31: `W` becomes the schedule of `BLKR`, whose words O15 and O16 describe. -/
theorem schedExpandsTheBlock : Obligations.SchedExpandsTheBlock := by
  unfold Obligations.SchedExpandsTheBlock
  refine ⟨fun s hph => ?_, fun s => exec_sched_of_wrong_phase, decode_encode .sched, fun low hlow => ?_⟩
  · exact ⟨_, exec_sched_of_loaded hph, scheduleFirstWords s.blkr, schedule_recurrence s.blkr, rfl⟩
  · exact (decode_error_iff 0x05#8 low).2 (.inr ⟨by decide, hlow⟩)

end Sys2Proof.Machine
end

section
/-! The CompressionRound and the command `RND` (44_compression_round.md): the two sums of a round, and each answer that `RND` can give. -/

namespace Sys2Proof.Machine

/-! ### The round -/

theorem roundT1_toNat (s : Vector Word 8) (w k : Word) : (roundT1 s w k).toNat =
    (s[7].toNat + (bigSigma1 s[4]).toNat + (choice s[4] s[5] s[6]).toNat + k.toNat + w.toNat) % 2 ^ 32 := by
  simp only [roundT1, add32_toNat, Nat.mod_add_mod]

theorem roundT2_toNat (s : Vector Word 8) :
    (roundT2 s).toNat = ((bigSigma0 s[0]).toNat + (majority s[0] s[1] s[2]).toNat) % 2 ^ 32 :=
  add32_toNat _ _

/-- The schedule word and the round constant are the last two terms of `t1` (R173). -/
theorem roundT1_eq_add32 (s : Vector Word 8) (w k : Word) :
    roundT1 s w k = add32 (add32 (add32 s[7] (bigSigma1 s[4])) (choice s[4] s[5] s[6])) (add32 w k) := by
  simp only [roundT1, add32, BitVec.add_assoc, BitVec.add_comm k w]

/-- A round reads the schedule word and the round constant through `t1` only. -/
theorem compressionRound_congr (s : Vector Word 8) {w k w' k' : Word} (h : add32 w k = add32 w' k') :
    compressionRound s w k = compressionRound s w' k' := by
  have ht1 : roundT1 s w k = roundT1 s w' k' := by rw [roundT1_eq_add32, roundT1_eq_add32, h]
  rw [compressionRound, compressionRound, ht1]

/-- Settles O17: `a` and `e` are sums of `roundT1` and `roundT2`, the other six values are moves. -/
theorem roundNextState : Obligations.RoundNextState := by
  unfold Obligations.RoundNextState
  intro s w k
  refine ⟨fun t1 t2 ht1 ht2 => ?_, rfl, rfl, rfl, rfl, rfl, rfl, fun w' k' => compressionRound_congr s⟩
  rw [← roundT1_toNat] at ht1
  rw [← roundT2_toNat] at ht2
  subst ht1 ht2
  exact ⟨add32_toNat _ _, add32_toNat _ _⟩

/-! ### The command, test by test -/

theorem kTable_getElem?_of_lt {i : Nat} (h : i < 64) : kTable[i]? = some (roundConstant i) := by
  have hlen : i < kTable.length := h
  rw [roundConstant, List.getD_eq_getElem _ _ hlen, List.getElem?_eq_getElem]

section

variable {idx : Index} {s : State}

theorem exec_rnd_of_allows (h : s.allows (.rnd idx)) : exec (.rnd idx) s = rndEffect idx s := by
  obtain ⟨hph, hT⟩ := h
  exact whenLegal_of_legal (by simp [hph]) (by simp [hph, hT])

theorem exec_rnd_of_not_allows (h : ¬ s.allows (.rnd idx)) (hfault : s.ph ≠ .fault) :
    exec (.rnd idx) s = .next (s.faulted .badPhase (encode (.rnd idx))) :=
  whenLegal_of_not_legal hfault (by simpa [State.allows] using h)

theorem rndEffect_of_badIndex (h : idx.toNat ≠ s.t.toNat) :
    rndEffect idx s = .next (s.faulted .badIndex (encode (.rnd idx))) :=
  if_pos (bne_iff_ne.2 (mt (idx_eq_round_iff idx s.t).1 h))

theorem rndEffect_of_index (h : idx.toNat = s.t.toNat) : rndEffect idx s = .next { s with
    s := compressionRound s.s (scheduleEntry s.w s.t.toNat) (roundConstant s.t.toNat), t := s.t + 1#7,
    written := { s.written with s := true } } := by
  obtain rfl := (idx_eq_round_iff idx s.t).2 h
  simp [rndEffect, idxIsNotRound, State.setS, State.setT]

end

/-- Settles O32, test by test: the phase with `T`, then the index, then the round with the two entries at `T`. -/
theorem rndAppliesOneRound : Obligations.RndAppliesOneRound := by
  unfold Obligations.RndAppliesOneRound
  intro idx s
  refine ⟨decode_encode (.rnd idx), fun hph hT hidx => ?_, fun hph hT hidx => ?_, fun hph hT => ?_, fun hph hfault => ?_⟩
  · refine ⟨roundConstant s.t.toNat, kTable_getElem?_of_lt hT, ?_⟩
    rw [exec_rnd_of_allows ⟨hph, hT⟩, rndEffect_of_index hidx, scheduleEntry_of_lt _ _ hT]
  · exact (exec_rnd_of_allows ⟨hph, hT⟩).trans (rndEffect_of_badIndex hidx)
  · exact exec_rnd_of_not_allows (fun h => h.2.ne hT) (by simp [hph])
  · exact exec_rnd_of_not_allows (fun h => hph h.1) hfault

end Sys2Proof.Machine
end

section
/-! The Compressor's commands `HINIT`, `WINIT` and `ACC` (45_compressor.md R181 to R183): each answer that they can give. -/

namespace Sys2Proof.Machine

/-- R212: a command that its phase, or the round count, does not allow faults. -/
theorem exec_of_not_allows {i : Instr} {s : State} (h : ¬ s.allows i) (hfault : s.ph ≠ .fault) :
    exec i s = .next (s.faulted .badPhase (encode i)) := by
  cases i <;> exact whenLegal_of_not_legal hfault (by simpa [State.allows] using h)

section

variable {s : State}

theorem exec_hinit_of_padded (h : s.ph = .padded) : exec .hinit s = .next { s with
    h := ivTable, bi := 0#56, ph := .ready, written := { s.written with h := true } } :=
  whenLegal_of_legal (by simp [h]) (decide_eq_true h)

theorem exec_winit_of_ready (h : s.ph = .ready) : exec .winit s = .next { s with
    s := s.h, ph := .wset, written := { s.written with s := true } } :=
  whenLegal_of_legal (by simp [h]) (decide_eq_true h)

theorem exec_acc_of_allows (h : s.allows .acc) : exec .acc s = .next { s with
    h := addLanes s.h s.s, bi := s.bi + 1#56, ph := phaseAfterAcc s, written := { s.written with h := true } } := by
  obtain ⟨hph, hT⟩ := h
  exact whenLegal_of_legal (by simp [hph]) (by simp [hph, hT])

end

/-- Settles O28: `ivTable` holds the eight words. -/
theorem hinitLoadsInitialHash : Obligations.HinitLoadsInitialHash := by
  unfold Obligations.HinitLoadsInitialHash
  exact ⟨fun s => exec_hinit_of_padded, fun s => exec_of_not_allows (i := .hinit), decode_encode .hinit,
    fun low hlow => (decode_error_iff 0x02#8 low).2 (.inr ⟨by decide, hlow⟩)⟩

/-- Settles O29: `S` takes the value of `H`. -/
theorem winitCopiesHash : Obligations.WinitCopiesHash := by
  unfold Obligations.WinitCopiesHash
  exact ⟨fun s => exec_winit_of_ready, fun s => exec_of_not_allows (i := .winit), decode_encode .winit,
    fun low hlow => (decode_error_iff 0x03#8 low).2 (.inr ⟨by decide, hlow⟩)⟩

/-- Settles O33: lane `i` of `addLanes` adds the lanes `i` and no other. -/
theorem accAddsEightLanes : Obligations.AccAddsEightLanes := by
  unfold Obligations.AccAddsEightLanes
  refine ⟨fun s hph hT => ⟨_, exec_acc_of_allows ⟨hph, hT⟩, fun i => ?_, rfl⟩, fun s hph hT => ?_, fun s hph => ?_,
    decode_encode .acc, fun low hlow => (decode_error_iff 0x07#8 low).2 (.inr ⟨by decide, hlow⟩)⟩
  · rw [Fin.getElem_fin, addLanes_getElem _ _ _ i.isLt, add32_toNat]
    rfl
  · exact exec_of_not_allows (fun h => hT.ne h.2) (by simp [hph])
  · exact exec_of_not_allows fun h => hph h.1

end Sys2Proof.Machine
end

section
/-! Where the phases lead (45_compressor.md R186, R189): each answer of a command is a row of the transition table, and no row leads out
of `FINAL` but to `FAULT`. -/

namespace Sys2Proof.Machine

/-! ### The counters -/

/-- `RND` counts one round more: `T` does not wrap (R32). -/
theorem toNat_round_succ {t : BitVec 7} (h : t.toNat < 64) : (t + 1#7).toNat = t.toNat + 1 := by
  rw [BitVec.toNat_add, BitVec.toNat_ofNat]
  omega

/-- `ACC` counts one block more: `BI` is below the block count, which `BI` can hold (R31). -/
theorem toNat_block_succ {s : State} (hs : s.SeqInv) (hph : s.ph = .rounds) :
    s.bi.toNat < s.nblk ∧ (s.bi + 1#56).toNat = s.bi.toNat + 1 := by
  obtain ⟨⟨hblock, -⟩, -, hpadded⟩ := hs
  have hlt : s.bi.toNat < s.nblk := hblock (.inr (.inr (.inr hph)))
  have hnblk : s.nblk < 2 ^ 56 := nblk_lt_of_paddedRules hpadded (by simp [State.holdsPadded, hph])
  refine ⟨hlt, ?_⟩
  rw [BitVec.toNat_add, BitVec.toNat_ofNat]
  omega

/-! ### The transition table -/

section

variable {s t : State} {rest : List HostAction}

/-- `ACC` is the one command with two rows: from a state of the invariant `BI` plus one reaches the block count or stays below it. -/
theorem transitionRow_acc (hs : s.SeqInv) (hph : s.ph = .rounds) (hT : s.t.toNat = 64) (htph : t.ph = phaseAfterAcc s)
    (hbi : t.bi = s.bi + 1#56) (ht : t.t = s.t) (hplen : t.plen = s.plen) (hfc : t.fc = s.fc) : TransitionRow s t .acc := by
  obtain ⟨hlt, hsucc⟩ := toNat_block_succ hs hph
  have hbi' : t.bi.toNat = s.bi.toNat + 1 := hbi ▸ hsucc
  by_cases hmore : s.bi.toNat + 1 < s.nblk
  · exact .accReady hph hT hmore (htph.trans (if_pos hmore)) hbi' ht hplen hfc
  · exact .accDone hph hT (by omega) (htph.trans (if_neg hmore)) hbi' ht hplen hfc

/-- A command other than `HASH` in `IDLE`, off the queue. -/
theorem transitionRow_of_commandCase {i : Instr} (hs : s.SeqInv) (hfault : s.ph ≠ .fault)
    (h : CommandCase (s.setPort rest) i t) : TransitionRow s t i := by
  cases h with
  | discarded i hph => exact absurd hph hfault
  | badPhase i _ hnot => exact .badPhase i (by cases i <;> exact hnot) rfl rfl rfl rfl rfl
  | pad m hph hm =>
    obtain ⟨-, hplen⟩ := pad_of_messageIs hm
    have hlen : m.length = s.mlen.toNat := Memory.readBytes_length hm.2
    exact .pad hph rfl rfl rfl (by rw [hplen, pad_length, hlen]) rfl
  | hinit hph => exact .hinit hph rfl rfl rfl rfl rfl
  | winit hph => exact .winit hph rfl rfl rfl rfl rfl
  | blkOutOfRange idx hph hr => exact .blkOutOfRange idx hph hr rfl rfl rfl rfl rfl
  | blkBadIndex idx hph hr hi => exact .blkBadIndex idx hph hr hi rfl rfl rfl rfl rfl
  | blk bs hph hr hbs => exact .blk s.bi hph hr rfl rfl rfl rfl rfl rfl
  | sched hph => exact .sched hph rfl rfl rfl rfl rfl
  | rndBadIndex idx hph hT hi => exact .rndBadIndex idx hph hT hi rfl rfl rfl rfl rfl
  | rnd hph hT => exact .rnd _ hph hT rfl hph rfl (toNat_round_succ hT) rfl rfl
  | acc hph hT => exact transitionRow_acc hs hph hT rfl rfl rfl rfl rfl
  | fmt hph => exact .fmt hph rfl rfl rfl rfl rfl

/-- `HASH` in `IDLE`, as `sequencer_hashEffect` describes its end. -/
theorem transitionRow_hash (hph : s.ph = .idle) (h : hashEffect (s.setPort rest) = .next t) : TransitionRow s t .hash := by
  obtain ⟨m, hm, hseq⟩ := sequencer_hashEffect (s := s.setPort rest) hph h
  obtain ⟨hle, hplen⟩ := pad_of_messageIs hm
  have hcap := pmsgCap_lt s.msgCap
  have hlen : m.length = s.mlen.toNat := Memory.readBytes_length hm.2
  have hplenT : t.plen.toNat = (pad m).length := by rw [show t.plen = _ from congrArg Sequencer.plen hseq, hplen]
  have hbiT : t.bi = BitVec.ofNat 56 ((pad m).length / 64) := congrArg Sequencer.bi hseq
  refine .hash hph (congrArg Sequencer.ph hseq) (by rw [hplenT, pad_length, hlen]) ?_ (congrArg Sequencer.t hseq)
    (congrArg Sequencer.fc hseq)
  rw [State.setPort_msgCap] at hle
  rw [hbiT, State.nblk, hplenT, BitVec.toNat_ofNat, Nat.mod_eq_of_lt (by omega)]

end

/-- Settles O46, by what the command that the word decodes to can answer. -/
theorem stepsFollowTransitionTable : Obligations.StepsFollowTransitionTable := by
  unfold Obligations.StepsFollowTransitionTable
  intro s t w rest i hs hport hfault hi h
  rw [step_of_port_cons hport, serveAction, acceptWord_of_ok (s := s.setPort rest) hfault hi] at h
  obtain hc | ⟨rfl, hph, hhash⟩ := exec_cases h
  · exact transitionRow_of_commandCase hs hfault hc
  · exact transitionRow_hash hph hhash

/-! ### `FINAL` -/

theorem not_allows_of_final (i : Instr) {s : State} (h : s.ph = .final) : ¬ s.allows i := by
  cases i <;> simp [State.allows, h]

/-- A word on the command port in `FINAL`, legal or not, is a fault entry. -/
theorem acceptWord_of_final (w : CommandWord) {s : State} (h : s.ph = .final) : ∃ c cmd, acceptWord w s = .next (s.faulted c cmd) ∧
    ((∃ i, decode w = .ok i) → c = .badPhase) ∧ ((∃ e, decode w = .error e) → c = .illegalCmd) := by
  have hfault : s.ph ≠ .fault := by simp [h]
  cases hdec : decode w with
  | error e => exact ⟨_, _, acceptWord_of_error hfault hdec, by simp, fun _ => rfl⟩
  | ok i =>
    exact ⟨_, _, (acceptWord_of_ok hfault hdec).trans (exec_of_not_allows (not_allows_of_final i h) hfault), fun _ => rfl, by simp⟩

/-- A step other than reset enters no phase from `FINAL` or `FAULT` but `FAULT`. -/
theorem step_ph_of_terminal {s t : State} (hph : s.ph = .final ∨ s.ph = .fault) (hreset : ∀ rest, s.port ≠ .reset :: rest)
    (h : step s = .next t) : t.ph = s.ph ∨ t.ph = .fault := by
  cases step_cases h with
  | resets rest hport => exact absurd hport (hreset rest)
  | executes w rest i _ hfault _ he =>
    have hfinal : s.ph = .final := hph.resolve_right hfault
    rw [exec_of_not_allows (s := s.setPort rest) (not_allows_of_final i hfinal) hfault] at he
    cases he
    exact .inr rfl
  | illegal w rest e _ _ _ ht => exact .inr (ht ▸ rfl)
  | waits _ ht => exact .inl (ht ▸ rfl)
  | discards w rest _ _ ht => exact .inl (ht ▸ rfl)
  | writesMsg a b rest _ _ ht => exact .inl (ht ▸ rfl)
  | writesMlen v rest _ ht => exact .inl (ht ▸ rfl)
  | readsByte space a rest _ ht => exact .inl (ht ▸ rfl)
  | readsReg r rest _ ht => exact .inl (ht ▸ rfl)

/-- Settles O45: fault entry writes no data register, and its phase clears both outputs. -/
theorem finalIsTerminal : Obligations.FinalIsTerminal := by
  unfold Obligations.FinalIsTerminal
  refine ⟨fun s w rest hph hport => ?_, fun s t hph h hreset => step_ph_of_terminal hph hreset h⟩
  obtain ⟨c, cmd, hw, hlegal, hillegal⟩ := acceptWord_of_final w (s := s.setPort rest) hph
  exact ⟨_, (step_of_port_cons hport).trans hw, rfl, rfl, rfl, rfl, rfl, hlegal, hillegal⟩

end Sys2Proof.Machine
end
section
/-! The data-path invariant (42_block_parser.md R155, 45_compressor.md R190, R193): what it asks in each phase, and that each command
computes what the next phase asks for; and that the padded message held is the padding of a message (41_padder.md R141). -/

namespace Sys2Proof.Machine

/-! ### What the invariant asks, phase by phase -/

section

variable {s : State}

theorem dataRules_of_unasked (h : s.ph = .idle ∨ s.ph = .padded ∨ s.ph = .fault) : s.dataRules := by
  obtain h | h | h := h <;> simp [State.dataRules, State.inBlock, State.absorbed, h]

theorem dataRules_iff_of_ready (h : s.ph = .ready) : s.dataRules ↔ s.h = hashAfter s.paddedMessage s.bi.toNat := by
  simp [State.dataRules, State.inBlock, State.absorbed, h]

theorem dataRules_iff_of_wset (h : s.ph = .wset) :
    s.dataRules ↔ s.h = hashAfter s.paddedMessage s.bi.toNat ∧ s.s = s.h := by
  simp [State.dataRules, State.inBlock, State.absorbed, h]

theorem dataRules_iff_of_loaded (h : s.ph = .loaded) : s.dataRules ↔ s.h = hashAfter s.paddedMessage s.bi.toNat ∧
    s.blkr = toBlock (s.paddedMessage.drop (64 * s.bi.toNat)) ∧ s.s = s.h := by
  simp [State.dataRules, State.inBlock, State.absorbed, h]

theorem dataRules_iff_of_rounds (h : s.ph = .rounds) : s.dataRules ↔ s.h = hashAfter s.paddedMessage s.bi.toNat ∧
    s.blkr = toBlock (s.paddedMessage.drop (64 * s.bi.toNat)) ∧ s.w = schedule s.blkr ∧
    s.s = roundsFrom s.w s.h s.t.toNat := by
  simp [State.dataRules, State.inBlock, State.absorbed, h]

theorem dataRules_iff_of_done (h : s.ph = .done) : s.dataRules ↔ s.h = compress s.paddedMessage := by
  simp [State.dataRules, State.inBlock, State.absorbed, h]

theorem dataRules_iff_of_final (h : s.ph = .final) : s.dataRules ↔ s.h = compress s.paddedMessage ∧ s.hex = fmt s.h := by
  simp [State.dataRules, State.inBlock, State.absorbed, h]

end

/-! ### The padded message and its blocks -/

theorem paddedMessage_of_read {s : State} {p : List Byte} (h : s.pmsg.readBytes 0 s.plen.toNat = some p) :
    s.paddedMessage = p := by
  rw [State.paddedMessage, h, Option.getD_some]

theorem readBytes_paddedMessage {s : State} (hpadded : s.paddedRules) (hheld : s.holdsPadded) :
    s.pmsg.readBytes 0 s.plen.toNat = some s.paddedMessage := by
  obtain ⟨p, hp⟩ := Option.isSome_iff_exists.1 (hpadded hheld).2
  rw [paddedMessage_of_read hp, hp]

/-- A block in range is read as a slice of the padded message (R151). -/
theorem readBytes_block {s : State} {p : List Byte} {i : Nat} (hp : s.pmsg.readBytes 0 s.plen.toNat = some p) (hi : i < s.nblk) :
    s.pmsg.readBytes (64 * i) 64 = some ((p.drop (64 * i)).take 64) := by
  have hslice : 64 * i + 64 ≤ s.plen.toNat := by
    rw [State.nblk] at hi
    omega
  simpa only [Nat.zero_add] using Memory.readBytes_slice hp hslice

/-- After all the blocks of the padded message `H` is its compression (R190). -/
theorem compress_paddedMessage {s : State} (hpadded : s.paddedRules) (hheld : s.holdsPadded) :
    compress s.paddedMessage = hashAfter s.paddedMessage s.nblk := by
  rw [compress, Memory.readBytes_length (readBytes_paddedMessage hpadded hheld), State.nblk]

/-! ### What keeps the invariant -/

/-- `ACC` absorbs the block in work; with the last one the hash is that of the whole padded message (R183, R193). -/
theorem dataRules_acc {s : State} (hs : s.SeqInv) (hd : s.dataRules) (hph : s.ph = .rounds) (hT : s.t.toNat = 64) :
    State.dataRules { s with
      h := addLanes s.h s.s, bi := s.bi + 1#56, ph := phaseAfterAcc s, written := { s.written with h := true } } := by
  obtain ⟨hH, hB, hW, hS⟩ := (dataRules_iff_of_rounds hph).1 hd
  obtain ⟨hlt, hbi⟩ := toNat_block_succ hs hph
  have habsorb : addLanes s.h s.s = hashAfter s.paddedMessage (s.bi.toNat + 1) := by
    rw [hS, hW, hB, hT, hH]
    rfl
  by_cases hmore : s.bi.toNat + 1 < s.nblk
  · refine (dataRules_iff_of_ready (if_pos hmore)).2 ?_
    rw [hbi]
    exact habsorb
  · have hlast : s.bi.toNat + 1 = s.nblk := by omega
    rw [hlast, ← compress_paddedMessage hs.2.2 (by simp [State.holdsPadded, hph])] at habsorb
    exact (dataRules_iff_of_done (if_neg hmore)).2 habsorb

theorem dataRules_command {s t : State} {i : Instr} (hs : s.SeqInv) (hd : s.dataRules) (h : CommandCase s i t) :
    t.dataRules := by
  cases h with
  | discarded i hph => exact hd
  | badPhase i => exact dataRules_of_unasked (.inr (.inr rfl))
  | blkOutOfRange idx => exact dataRules_of_unasked (.inr (.inr rfl))
  | blkBadIndex idx => exact dataRules_of_unasked (.inr (.inr rfl))
  | rndBadIndex idx => exact dataRules_of_unasked (.inr (.inr rfl))
  | pad m hph hm => exact dataRules_of_unasked (.inr (.inl rfl))
  | hinit hph => exact (dataRules_iff_of_ready rfl).2 rfl
  | winit hph => exact (dataRules_iff_of_wset rfl).2 ⟨(dataRules_iff_of_ready hph).1 hd, rfl⟩
  | blk bs hph hlt hbs =>
    obtain ⟨hH, hS⟩ := (dataRules_iff_of_wset hph).1 hd
    have hread := readBytes_paddedMessage hs.2.2 (by simp [State.holdsPadded, hph])
    obtain rfl : bs = _ := Option.some.inj (hbs.symm.trans (readBytes_block hread hlt))
    exact (dataRules_iff_of_loaded rfl).2 ⟨hH, toBlock_take _, hS⟩
  | sched hph =>
    obtain ⟨hH, hB, hS⟩ := (dataRules_iff_of_loaded hph).1 hd
    exact (dataRules_iff_of_rounds rfl).2 ⟨hH, hB, rfl, hS⟩
  | rnd hph hT =>
    obtain ⟨hH, hB, hW, hS⟩ := (dataRules_iff_of_rounds hph).1 hd
    refine (dataRules_iff_of_rounds ?_).2 ⟨hH, hB, hW, ?_⟩
    · exact hph
    · rw [toNat_round_succ hT, hS]
      rfl
  | acc hph hT => exact dataRules_acc hs hd hph hT
  | fmt hph => exact (dataRules_iff_of_final rfl).2 ⟨(dataRules_iff_of_done hph).1 hd, rfl⟩

/-- Of the state the rules read nothing that the host can write. -/
theorem dataRules_keptByStep : KeptByStep fun s => s.SeqInv ∧ s.dataRules where
  port _ hs := hs
  command hs h := ⟨seqInv_command hs.1 h, dataRules_command hs.1 hs.2 h⟩
  illegal w hs := ⟨seqInv_keptByStep.illegal w hs.1, dataRules_of_unasked (.inr (.inr rfl))⟩
  reset hs := ⟨seqInv_applyReset hs.1, dataRules_of_unasked (.inl rfl)⟩
  writeMsg b hs ha := ⟨seqInv_writeMsg b hs.1 ha, hs.2⟩
  writeMlen _ hs := hs

/-- Settles O54: every part of a step keeps the data rules together with the sequencer's invariant. -/
theorem everyStepKeepsDataPath : Obligations.EveryStepKeepsDataPath := by
  unfold Obligations.EveryStepKeepsDataPath
  exact fun s t hs hd h => (dataRules_keptByStep.step ⟨hs, hd⟩ h).2

/-! ### The message behind the padded message -/

theorem paddedFromMessage_of_unheld {s : State} (h : s.ph = .idle ∨ s.ph = .fault) : s.paddedFromMessage :=
  fun hheld => (h.elim hheld.1 hheld.2).elim

/-- What `PAD` stores is read back as the padding of the message that it read. -/
theorem paddedFromMessage_pad {s : State} {m : List Byte} (hm : s.messageIs m) : State.paddedFromMessage { s with
    pmsg := s.pmsg.writeBytes 0 (pad m), plen := BitVec.ofNat 64 (pad m).length, ph := .padded } := by
  obtain ⟨-, hplen⟩ := pad_of_messageIs hm
  refine fun _ => ⟨m, (Memory.readBytes_length hm.2).trans_le hm.1, paddedMessage_of_read ?_⟩
  simp only [hplen, Memory.readBytes_writeBytes]

theorem paddedFromMessage_command {s t : State} {i : Instr} (hs : s.paddedFromMessage) (h : CommandCase s i t) :
    t.paddedFromMessage := by
  cases h with
  | discarded i hph => exact hs
  | badPhase i => exact paddedFromMessage_of_unheld (.inr rfl)
  | blkOutOfRange idx => exact paddedFromMessage_of_unheld (.inr rfl)
  | blkBadIndex idx => exact paddedFromMessage_of_unheld (.inr rfl)
  | rndBadIndex idx => exact paddedFromMessage_of_unheld (.inr rfl)
  | pad m hph hm => exact paddedFromMessage_pad hm
  | hinit hph | winit hph | blk _ hph | sched hph | rnd hph | acc hph | fmt hph =>
    exact fun _ => hs (by simp [State.holdsPadded, hph])

theorem paddedFromMessage_keptByStep : KeptByStep State.paddedFromMessage where
  port _ hs := hs
  command := paddedFromMessage_command
  illegal _ _ := paddedFromMessage_of_unheld (.inr rfl)
  reset _ := paddedFromMessage_of_unheld (.inl rfl)
  writeMsg _ hs _ := hs
  writeMlen _ hs := hs

/-- Settles O55: every part of a step keeps the message behind the padded message; in `FINAL` the data rules name its digest. -/
theorem everyStepKeepsPaddedFromMessage : Obligations.EveryStepKeepsPaddedFromMessage := by
  unfold Obligations.EveryStepKeepsPaddedFromMessage
  refine ⟨fun s t _ hs h => paddedFromMessage_keptByStep.step hs h, fun s hd hs hph => ?_⟩
  obtain ⟨m, hlen, hpad⟩ := hs (by simp [State.holdsPadded, hph])
  obtain ⟨hH, hHex⟩ := (dataRules_iff_of_final hph).1 hd
  have hdigest : s.h = digestWords m := by rw [hH, hpad, digestWords]
  exact ⟨m, hlen, hpad, hdigest, by rw [hHex, hdigest, digest]⟩

end Sys2Proof.Machine
end

section
/-! `HASH` (45_compressor.md R191, R192): its expansion answers every command, so its end state is written out, loop by loop, as a record;
the words of `HASHSEQ` run the same expansion. -/

namespace Sys2Proof.Machine

/-! ### The loops -/

theorem andThen_trans {r r' : Result} {f : State → Result} {s : State} (hr : r = .next s) (hf : f s = r') : andThen r f = r' := by
  rw [hr, andThen_next, hf]

theorem setS_of_written {s : State} (h : s.written.s = true) : s.setS s.s = s := by
  rw [State.setS, ← h]

/-- `n` rounds from `T = 0` (R184). -/
theorem runRounds_eq {s : State} (hph : s.ph = .rounds) (hT : s.t = 0#7) (hw : s.written.s = true) : ∀ {n : Nat}, n ≤ 64 →
    runRounds n s = .next ((s.setS (roundsFrom s.w s.s n)).setT (BitVec.ofNat 7 n))
  | 0, _ => by
    rw [runRounds, roundsFrom, setS_of_written hw, ← hT, State.setT]
  | n + 1, hn => by
    refine andThen_trans (runRounds_eq hph hT hw (Nat.le_of_succ_le hn)) ?_
    have hTn : (BitVec.ofNat 7 n).toNat = n := by
      rw [BitVec.toNat_ofNat]
      omega
    have hidx : (BitVec.ofNat 56 n).toNat = n := by
      rw [BitVec.toNat_ofNat]
      omega
    refine (exec_rnd_of_allows ⟨?_, ?_⟩).trans ((rndEffect_of_index ?_).trans ?_)
    · exact hph
    · rw [State.setT_t, hTn]
      omega
    · rw [State.setT_t, hTn, hidx]
    · simp only [State.setT_t, State.setT_w, State.setS_w, State.setT_s, State.setS_s, hTn]
      rw [← BitVec.ofNat_add]
      rfl

/-- The state after the blocks 0 to `n` of the padded message `p`, from `READY` with `H` the initial words: block `n` stands in `BLKR`,
its schedule in `W`, its last working state in `S` (R185, R190). -/
def State.afterBlock (s : State) (p : List Byte) (n : Nat) : State :=
  { s with
    s := roundsFrom (schedule (toBlock (p.drop (64 * n)))) (hashAfter p n) 64, h := hashAfter p (n + 1),
    w := schedule (toBlock (p.drop (64 * n))), blkr := toBlock (p.drop (64 * n)),
    ph := if n + 1 < s.nblk then .ready else .done, bi := BitVec.ofNat 56 (n + 1), t := 64#7,
    written := ⟨true, true, true, true, s.written.hex⟩ }

section

variable {s : State} {p : List Byte} {n : Nat}

/-- One block, asked for by its own index. -/
theorem runBlock_eq (hp : s.pmsg.readBytes 0 s.plen.toNat = some p) (hn : n < s.nblk) (hnblk : s.nblk < 2 ^ 56)
    (hph : s.ph = .ready) (hbi : s.bi = BitVec.ofNat 56 n) (hh : s.h = hashAfter p n) :
    runBlock n s = .next (s.afterBlock p n) := by
  have hidx : s.bi.toNat = n := by rw [hbi, BitVec.toNat_ofNat, Nat.mod_eq_of_lt (by omega)]
  have hread : s.pmsg.readBytes (64 * s.bi.toNat) 64 = some ((p.drop (64 * n)).take 64) := by rw [hidx, readBytes_block hp hn]
  have hblk : execBlk (BitVec.ofNat 56 n) ((s.setS s.h).setPh .wset) =
      .next ((((s.setS s.h).setPh .wset).setBlkr (toBlock (p.drop (64 * n)))).setPh .loaded) := by
    rw [← hbi, ← toBlock_take]
    exact (exec_blk_of_wset rfl).trans (blkEffect_of_read (s := (s.setS s.h).setPh .wset) (hidx ▸ hn) hread)
  have hacc : phaseAfterAcc s = if n + 1 < s.nblk then .ready else .done := by rw [phaseAfterAcc, hidx]
  refine andThen_trans (andThen_trans (andThen_trans (andThen_trans (exec_winit_of_ready hph) hblk) (exec_sched_of_loaded rfl))
    (runRounds_eq rfl rfl rfl (Nat.le_refl 64))) ((exec_acc_of_allows ⟨rfl, rfl⟩).trans ?_)
  rw [State.afterBlock, hashAfter, absorb, ← hh, ← hacc, BitVec.ofNat_add, ← hbi]
  rfl

theorem runBlocks_eq (hp : s.pmsg.readBytes 0 s.plen.toNat = some p) (hnblk : s.nblk < 2 ^ 56)
    (hph : s.ph = .ready) (hbi : s.bi = 0#56) (hh : s.h = ivTable) : ∀ {n : Nat}, n < s.nblk →
    runBlocks (n + 1) s = .next (s.afterBlock p n)
  | 0, hn => runBlock_eq hp hn hnblk hph hbi hh
  | n + 1, hn => andThen_trans (runBlocks_eq hp hnblk hph hbi hh (Nat.lt_of_succ_lt hn))
      (runBlock_eq (s := s.afterBlock p n) hp hn hnblk (if_pos hn) rfl rfl)

end

/-! ### The whole expansion -/

theorem exec_fmt_of_done {s : State} (h : s.ph = .done) : exec .fmt s = .next { s with
    hex := fmt s.h, ph := .final, written := { s.written with hex := true } } :=
  whenLegal_of_legal (by simp [h]) (decide_eq_true h)

/-- The state after `PAD` on the message `m` and `HINIT` (R142, R181). -/
def State.afterHinit (s : State) (m : List Byte) : State :=
  { s with
    h := ivTable, ph := .ready, bi := 0#56, plen := BitVec.ofNat 64 (pad m).length, pmsg := s.pmsg.writeBytes 0 (pad m),
    written := { s.written with h := true } }

/-- The end state of `HASH` on the message `m` (R191): the state after the last block of `pad m`, and the digest text. -/
def State.afterHash (s : State) (m : List Byte) : State :=
  { (s.afterHinit m).afterBlock (pad m) ((pad m).length / 64 - 1) with
    hex := fmt (compress (pad m)), ph := .final, written := ⟨true, true, true, true, true⟩ }

section

variable {s : State} {m : List Byte}

/-- What the blocks need to know of the padded message that `PAD` has stored. -/
theorem afterHinit_padded (hm : s.messageIs m) :
    (s.afterHinit m).pmsg.readBytes 0 (s.afterHinit m).plen.toNat = some (pad m) ∧
    (s.afterHinit m).nblk = (pad m).length / 64 ∧ 0 < (pad m).length / 64 ∧ (pad m).length / 64 < 2 ^ 56 := by
  obtain ⟨hle, hplen⟩ := pad_of_messageIs hm
  have hcap := pmsgCap_lt s.msgCap
  have hplen' : (s.afterHinit m).plen.toNat = (pad m).length := hplen
  refine ⟨?_, congrArg (· / 64) hplen, ?_, by omega⟩
  · rw [hplen']
    exact Memory.readBytes_writeBytes s.pmsg 0 (pad m)
  · rw [pad_blocks]
    omega

theorem execPad_execHinit (hph : s.ph = .idle) (hm : s.messageIs m) :
    andThen (execPad s) execHinit = .next (s.afterHinit m) :=
  andThen_trans ((exec_pad_of_idle hph).trans (padEffect_of_message hm)) (exec_hinit_of_padded rfl)

/-- After the last block `ACC` has entered `DONE`, and `H` is the compression of the padded message (R193). -/
theorem runBlocks_execFmt (hm : s.messageIs m) :
    andThen (runBlocks ((pad m).length / 64) (s.afterHinit m)) execFmt = .next (s.afterHash m) := by
  obtain ⟨hread, hnblk, hpos, hlt⟩ := afterHinit_padded hm
  obtain ⟨n, hn⟩ : ∃ n, (pad m).length / 64 = n + 1 := ⟨_, (Nat.succ_pred_eq_of_pos hpos).symm⟩
  rw [State.afterHash, compress, hn]
  refine andThen_trans (runBlocks_eq hread (hnblk ▸ hlt) rfl rfl rfl (by omega)) (exec_fmt_of_done (if_neg ?_))
  omega

theorem hashEffect_eq (hph : s.ph = .idle) (hm : s.messageIs m) : hashEffect s = .next (s.afterHash m) := by
  obtain ⟨-, hnblk, -, -⟩ := afterHinit_padded hm
  rw [hashEffect, execPad_execHinit hph hm, andThen_next, hnblk, runBlocks_execFmt hm]

end

/-- Settles O35: `hashEffect_eq`, field by field. -/
theorem hashComputesTheDigest : Obligations.HashComputesTheDigest := by
  unfold Obligations.HashComputesTheDigest
  refine ⟨fun s m hph hm => ?_, fun s => exec_of_not_allows (i := .hash), decode_encode .hash,
    fun low hlow => (decode_error_iff 0x09#8 low).2 (.inr ⟨by decide, hlow⟩)⟩
  obtain ⟨hread, hnblk, hpos, hlt⟩ := afterHinit_padded hm
  obtain ⟨-, hplen⟩ := pad_of_messageIs hm
  have hnblk' : (s.afterHash m).nblk = (pad m).length / 64 := hnblk
  have hlast : (pad m).length / 64 - 1 + 1 = (pad m).length / 64 := Nat.sub_add_cancel hpos
  refine ⟨s.afterHash m, (exec_hash_of_idle hph).trans (hashEffect_eq hph hm), rfl, ?_, rfl, hplen, hread, fun a ha => ?_, ?_, rfl,
    by rw [hnblk']; rfl, rfl, by rw [hnblk']; rfl, rfl, rfl, rfl⟩
  · show hashAfter (pad m) ((pad m).length / 64 - 1 + 1) = compress (pad m)
    rw [hlast, compress]
  · exact Memory.read_writeBytes_outside _ _ (.inr (by rw [Nat.zero_add, ← hplen]; exact ha))
  · show (BitVec.ofNat 56 ((pad m).length / 64 - 1 + 1)).toNat = _
    rw [hlast, hnblk', BitVec.toNat_ofNat, Nat.mod_eq_of_lt hlt]

/-! ### `HASHSEQ` -/

/-- Commands one after another. -/
def runCommands : List Instr → State → Result
  | [], s => .next s
  | i :: is, s => andThen (exec i s) (runCommands is)

theorem runCommands_append (is js : List Instr) (s : State) :
    runCommands (is ++ js) s = andThen (runCommands is s) (runCommands js) := by
  induction is generalizing s with
  | nil => rfl
  | cons i is ih =>
    rw [List.cons_append, runCommands, runCommands, andThen_assoc]
    exact congrArg (andThen (exec i s)) (funext ih)

theorem runCommands_singleton (i : Instr) : runCommands [i] = exec i := by
  funext s
  rw [runCommands, show runCommands [] = .next from rfl]
  cases exec i s <;> rfl

theorem runCommands_roundsSeq : ∀ (n : Nat) (s : State), runCommands (roundsSeq n) s = runRounds n s
  | 0, _ => rfl
  | n + 1, s => by
    rw [roundsSeq, runCommands_append, runCommands_roundsSeq n s, runCommands_singleton, runRounds]
    rfl

theorem runCommands_blockSeq (i : Nat) (s : State) : runCommands (blockSeq i) s = runBlock i s := by
  have hload : runCommands [.winit, .blk (BitVec.ofNat 56 i), .sched] s =
      andThen (andThen (exec .winit s) (exec (.blk (BitVec.ofNat 56 i)))) (exec .sched) := by
    rw [andThen_assoc, runCommands]
    refine congrArg (andThen (exec .winit s)) (funext fun t => ?_)
    rw [runCommands, runCommands_singleton]
  have hrounds : runCommands (roundsSeq 64) = runRounds 64 := funext (runCommands_roundsSeq 64)
  rw [blockSeq, runCommands_append, runCommands_append, hload, hrounds, runCommands_singleton]
  rfl

theorem runCommands_blocksSeq : ∀ (n : Nat) (s : State), runCommands (blocksSeq n) s = runBlocks n s
  | 0, _ => rfl
  | n + 1, s => by
    have hblock : runCommands (blockSeq n) = runBlock n := funext (runCommands_blockSeq n)
    rw [blocksSeq, runCommands_append, runCommands_blocksSeq n s, hblock, runBlocks]

/-- `HASHSEQ` is the expansion with the number of blocks given by its operand. -/
theorem runCommands_hashSeq (n : Nat) (s : State) :
    runCommands (hashSeq n) s = andThen (andThen (andThen (execPad s) execHinit) (runBlocks n)) execFmt := by
  have hblocks : runCommands (blocksSeq n) = runBlocks n := funext (runCommands_blocksSeq n)
  rw [hashSeq, runCommands_append, runCommands_append, hblocks, runCommands_singleton, runCommands, runCommands_singleton]
  rfl

theorem roundsSeq_length : ∀ n, (roundsSeq n).length = n
  | 0 => rfl
  | n + 1 => by rw [roundsSeq, List.length_append, roundsSeq_length n, List.length_singleton]

theorem blocksSeq_length : ∀ n, (blocksSeq n).length = 68 * n
  | 0 => rfl
  | n + 1 => by
    have hblock : (blockSeq n).length = 68 := by
      simp only [blockSeq, List.length_append, roundsSeq_length, List.length_cons, List.length_nil]
    rw [blocksSeq, List.length_append, blocksSeq_length n, hblock, Nat.mul_succ]

theorem hashSeq_length (n : Nat) : (hashSeq n).length = 3 + 68 * n := by
  simp only [hashSeq, List.length_append, blocksSeq_length, List.length_cons, List.length_nil]
  omega

/-! ### The queue -/

/-- `f` neither reads nor writes what is pending. -/
def IgnoresPort (q : List HostAction) (f : State → Result) : Prop :=
  ∀ s : State, f (s.setPort q) = mapNext (fun t => t.setPort q) (f s)

section

variable {q : List HostAction}

theorem IgnoresPort.whenLegal {i : Instr} {legal : State → Bool} {effect : State → Result} (heffect : IgnoresPort q effect)
    (hlegal : ∀ s : State, legal (s.setPort q) = legal s) : IgnoresPort q fun s => whenLegal i (legal s) effect s := by
  intro s
  simp only [Machine.whenLegal, hlegal, State.setPort_ph, heffect s]
  split
  · rfl
  · split <;> rfl

theorem ignoresPort_padEffect : IgnoresPort q padEffect := by
  intro s
  by_cases hcap : s.msgCap.toNat < s.mlen.toNat
  · rw [padEffect_of_overlong hcap, padEffect_of_overlong (s := s.setPort q) hcap]
    rfl
  · cases hread : s.msg.readBytes 0 s.mlen.toNat with
    | none =>
      rw [padEffect_of_unwritten (Nat.not_lt.1 hcap) hread, padEffect_of_unwritten (s := s.setPort q) (Nat.not_lt.1 hcap) hread]
      rfl
    | some m =>
      have hm : s.messageIs m := ⟨Nat.not_lt.1 hcap, hread⟩
      rw [padEffect_of_message hm, padEffect_of_message (s := s.setPort q) hm]
      rfl

theorem ignoresPort_blkEffect (idx : Index) : IgnoresPort q (blkEffect idx) := by
  intro s
  have hrange : idxOutOfRange idx (s.setPort q) = idxOutOfRange idx s := rfl
  have hindex : idxIsNotBlock idx (s.setPort q) = idxIsNotBlock idx s := rfl
  simp only [blkEffect, hrange, hindex, State.setPort_pmsg]
  split
  · rfl
  · split
    · rfl
    · cases s.pmsg.readBytes (blockStart idx) 64 <;> rfl

theorem ignoresPort_rndEffect (idx : Index) : IgnoresPort q (rndEffect idx) := by
  intro s
  have hindex : idxIsNotRound idx (s.setPort q) = idxIsNotRound idx s := rfl
  simp only [rndEffect, hindex]
  split <;> rfl

theorem ignoresPort_exec {i : Instr} (hi : i ≠ .hash) : IgnoresPort q (exec i) := by
  cases i with
  | pad => exact ignoresPort_padEffect.whenLegal fun _ => rfl
  | hinit => exact .whenLegal (effect := hinitEffect) (fun _ => rfl) fun _ => rfl
  | winit => exact .whenLegal (effect := winitEffect) (fun _ => rfl) fun _ => rfl
  | blk idx => exact (ignoresPort_blkEffect idx).whenLegal fun _ => rfl
  | sched => exact .whenLegal (effect := schedEffect) (fun _ => rfl) fun _ => rfl
  | rnd idx => exact (ignoresPort_rndEffect idx).whenLegal fun _ => rfl
  | acc => exact .whenLegal (effect := accEffect) (fun _ => rfl) fun _ => rfl
  | fmt => exact .whenLegal (effect := fmtEffect) (fun _ => rfl) fun _ => rfl
  | hash => exact absurd rfl hi

end

/-- A presented command is the next thing that runs (R75). -/
theorem step_presented (i : Instr) (s : State) (rest : List HostAction) :
    step (s.setPort (.command (encode i) :: rest)) = exec i (s.setPort rest) :=
  stepRunsDecodedCommand.2.1 _ _ _ _ rfl (decode_encode i)

/-- As many steps as there are words presented run their commands, whatever is pending behind them. -/
theorem runSteps_presentAll : ∀ {is : List Instr} (s : State) (rest : List HostAction), .hash ∉ is →
    runSteps is.length (s.setPort (presentAll is ++ rest)) = runCommands is (s.setPort rest)
  | [], _, _, _ => rfl
  | i :: is, s, rest, his => by
    obtain ⟨hi, his⟩ := List.ne_and_not_mem_of_not_mem_cons his
    have hstep : step (s.setPort (presentAll (i :: is) ++ rest)) = exec i (s.setPort (presentAll is ++ rest)) :=
      step_presented i s _
    rw [List.length_cons, runSteps, hstep, runCommands, ignoresPort_exec hi.symm, ignoresPort_exec hi.symm]
    cases exec i s with
    | next t => exact runSteps_presentAll t rest his
    | fault e => rfl
    | refused e => rfl

theorem hash_notMem_roundsSeq (n : Nat) : .hash ∉ roundsSeq n := by
  induction n with
  | zero => simp [roundsSeq]
  | succ n ih => simp [roundsSeq, ih]

theorem hash_notMem_blocksSeq (n : Nat) : .hash ∉ blocksSeq n := by
  induction n with
  | zero => simp [blocksSeq]
  | succ n ih => simp [blocksSeq, blockSeq, hash_notMem_roundsSeq, ih]

theorem hash_notMem_hashSeq (n : Nat) : .hash ∉ hashSeq n := by
  simp [hashSeq, hash_notMem_blocksSeq]

/-- Settles O36: the steps run the commands of `HASHSEQ`, which are the expansion that `HASH` runs. -/
theorem hashseqReachesHashState : Obligations.HashseqReachesHashState := by
  unfold Obligations.HashseqReachesHashState
  intro s m rest n hph hm hn hport
  have hph' : (s.setPort rest).ph = .idle := hph
  have hm' : (s.setPort rest).messageIs m := hm
  refine ⟨hashSeq_length n, (s.setPort rest).afterHash m, ?_, (exec_hash_of_idle hph').trans (hashEffect_eq hph' hm'), rfl⟩
  calc runSteps (3 + 68 * n) s
    _ = runSteps (hashSeq n).length (s.setPort (presentAll (hashSeq n) ++ rest)) := by
      rw [hashSeq_length, ← hport]
      rfl
    _ = runCommands (hashSeq n) (s.setPort rest) := runSteps_presentAll s rest (hash_notMem_hashSeq n)
    _ = .next ((s.setPort rest).afterHash m) := by
      rw [runCommands_hashSeq, execPad_execHinit hph' hm', andThen_next, hn, runBlocks_execFmt hm']

end Sys2Proof.Machine
end

section
/-! The DigestFormatter and the command `FMT` (46_digest_formatter.md): the characters of the digest text, the round trip through
`parse`, and each answer that `FMT` can give. -/

namespace Sys2Proof.Machine

/-! ### The characters -/

/-- R202: the digits 0 to 9, then a to f. -/
theorem hexchar_toNat : ∀ n : BitVec 4, (hexchar n).toNat = if n.toNat ≤ 9 then 0x30 + n.toNat else 0x57 + n.toNat := by decide

theorem hexchar_range (n : BitVec 4) : 0x30 ≤ (hexchar n).toNat ∧ (hexchar n).toNat ≤ 0x39 ∨
    0x61 ≤ (hexchar n).toNat ∧ (hexchar n).toNat ≤ 0x66 := by
  rw [hexchar_toNat]
  split <;> omega

/-- R200: character `8*i + j` is digit `j` of word `i`. -/
theorem fmt_getElem_digit (h : Vector Word 8) (i j : Fin 8) : (fmt h)[8 * i.val + j.val] = hexchar (hexDigit h[i] j.val) := by
  have hword : (8 * i.val + j.val) / 8 = i.val := by omega
  have hdigit : (8 * i.val + j.val) % 8 = j.val := by omega
  simp only [fmt_getElem, hword, hdigit, Fin.getElem_fin]

/-- Settles O18: a character is the code of its word's digit. -/
theorem formatterCharacters : Obligations.FormatterCharacters := by
  unfold Obligations.FormatterCharacters
  rintro h i j n rfl
  rw [fmt_getElem_digit, ← hexDigit_toNat _ _ j.isLt]
  exact ⟨hexchar_toNat _, hexchar_range _⟩

/-! ### The round trip -/

/-- The last `n` digits of a number in base `b`, the most significant first, add up to its remainder modulo `b ^ n`. -/
theorem sum_digits_eq_mod (x b : Nat) : ∀ n : Nat,
    (List.ofFn fun j : Fin n => x / b ^ (n - 1 - j.val) % b * b ^ (n - 1 - j.val)).sum = x % b ^ n
  | 0 => (Nat.mod_one x).symm
  | n + 1 => by
    have htail : ∀ j : Nat, n + 1 - 1 - (j + 1) = n - 1 - j := fun j => by omega
    rw [List.ofFn_succ, List.sum_cons, Nat.mod_pow_succ, Nat.add_comm (x % b ^ n), Nat.mul_comm (b ^ n)]
    simp only [Fin.val_succ, htail, sum_digits_eq_mod x b n]
    rfl

/-- Settles O19: a character's value is its digit, and the eight digits of a word add up to it. -/
theorem formatThenParse : Obligations.FormatThenParse := by
  unfold Obligations.FormatThenParse
  intro h
  refine Vector.ext fun i hi => ?_
  have hval : ∀ j : Fin 8, hexval (fmt h)[8 * i + j.val] = h[i].toNat / 16 ^ (7 - j.val) % 16 := fun j => by
    rw [fmt_getElem_digit h ⟨i, hi⟩ j, hexval_hexchar, hexDigit_toNat _ _ j.isLt]
    rfl
  have hword : h[i].toNat % 16 ^ 8 = h[i].toNat := Nat.mod_eq_of_lt h[i].isLt
  rw [parse, tabulate_getElem]
  simp only [hval]
  rw [sum_digits_eq_mod h[i].toNat 16 8, hword, BitVec.ofNat_toNat, BitVec.setWidth_eq]

/-! ### The command -/

/-- A digit by the shift that brings it to the low four bits (R200). -/
theorem hexDigit_toNat_shift (x : Word) (j : Nat) : (hexDigit x j).toNat = x.toNat / 2 ^ (28 - 4 * j) % 16 := by
  rw [hexDigit, BitVec.toNat_setWidth, BitVec.toNat_ushiftRight, Nat.shiftRight_eq_div_pow]

/-- Settles O34: `HEX` becomes the digest text of `H`, and the outputs are those of `FINAL`. -/
theorem fmtWritesDigestText : Obligations.FmtWritesDigestText := by
  unfold Obligations.FmtWritesDigestText
  refine ⟨fun s hph => ⟨_, exec_fmt_of_done hph, ?_, rfl, rfl, rfl⟩, fun s => exec_of_not_allows (i := .fmt), decode_encode .fmt,
    fun low hlow => (decode_error_iff 0x08#8 low).2 (.inr ⟨by decide, hlow⟩)⟩
  rintro i j n rfl
  rw [fmt_getElem_digit, hexchar_toNat, hexDigit_toNat_shift]

end Sys2Proof.Machine
end

section
/-! Exceptions (60_exceptions.md): the order of the tests, what fault entry writes, and `FAULT`, which only reset leaves. -/

namespace Sys2Proof.Machine

/-! ### Fault entry -/

theorem phaseAfterAcc_ne_fault (s : State) : phaseAfterAcc s ≠ .fault := by
  unfold phaseAfterAcc
  split <;> simp

/-- R215, for one command: a case that enters `FAULT` is a fault entry with the command's own word; the effects lead elsewhere. -/
theorem commandCase_into_fault {s t : State} {i : Instr} (h : CommandCase s i t) (hs : s.ph ≠ .fault) (ht : t.ph = .fault) :
    ∃ c, c ≠ .none ∧ t = s.faulted c (encode i) := by
  cases h with
  | discarded i hf => exact absurd hf hs
  | badPhase i => exact ⟨.badPhase, by simp, rfl⟩
  | blkOutOfRange idx => exact ⟨.outOfRange, by simp, rfl⟩
  | blkBadIndex idx | rndBadIndex idx => exact ⟨.badIndex, by simp, rfl⟩
  | rnd => exact absurd ht hs
  | acc => exact absurd ht (phaseAfterAcc_ne_fault s)
  | pad | hinit | winit | blk | sched | fmt => simp at ht

/-- R215, for any word. `HASH` in `IDLE` enters no `FAULT`, because its expansion ends in `FINAL` (`hashEffect_ph`). -/
theorem acceptWord_into_fault {w : CommandWord} {s t : State} (h : acceptWord w s = .next t) (hs : s.ph ≠ .fault)
    (ht : t.ph = .fault) : ∃ c, c ≠ .none ∧ t = s.faulted c w := by
  obtain ⟨hf, -⟩ | ⟨-, e, -, rfl⟩ | ⟨-, i, hi, he⟩ := acceptWord_next h
  · exact absurd hf hs
  · exact ⟨.illegalCmd, by simp, rfl⟩
  · obtain rfl : encode i = w := decode_eq_ok_iff.1 hi
    obtain hc | ⟨-, hph, hhash⟩ := exec_cases he
    · exact commandCase_into_fault hc hs ht
    · simp [hashEffect_ph hph hhash] at ht

/-- Settles O43: `acceptWord_into_fault` on the state with the word taken; the outputs are those of `FAULT`. -/
theorem faultsArePrecise : Obligations.FaultsArePrecise := by
  unfold Obligations.FaultsArePrecise
  intro s t w rest hport hs h ht
  rw [step_of_port_cons hport] at h
  obtain ⟨c, hc, rfl⟩ := acceptWord_into_fault (s := s.setPort rest) h hs ht
  exact ⟨c, hc, rfl, rfl, rfl, rfl⟩

/-! ### The tests and their order -/

/-- Settles O41, by `exec_of_not_allows`: one phase test guards every command. -/
theorem wrongPhaseFaults : Obligations.WrongPhaseFaults := by
  unfold Obligations.WrongPhaseFaults
  exact fun i s hs hnot => exec_of_not_allows hnot hs

theorem allows_setPort (s : State) (rest : List HostAction) (i : Instr) : (s.setPort rest).allows i ↔ s.allows i := by
  cases i <;> exact Iff.rfl

/-- In `WSET` the block in work is in range, so an index out of range is another one (10_state.md R33 (ii)). -/
theorem ne_bi_of_outOfRange {s : State} {idx : Index} (hs : s.SeqInv) (hph : s.ph = .wset) (hr : s.nblk ≤ idx.toNat) :
    idx ≠ s.bi := by
  obtain ⟨⟨hblock, -⟩, -, -⟩ := hs
  have hlt : s.bi.toNat < s.nblk := hblock (.inr (.inl hph))
  rintro rfl
  exact Nat.not_lt.2 hr hlt

/-- Settles O42, one test after another: the answer of the word's command when the tests before have passed. -/
theorem faultPriority : Obligations.FaultPriority := by
  unfold Obligations.FaultPriority
  intro s w rest hport hs
  obtain ⟨-, hillegal, -, -⟩ := illegalWordsFault
  obtain ⟨-, hstep, -⟩ := stepRunsDecodedCommand
  refine ⟨fun e he => hillegal s w rest e hport hs he, fun i hi hnot => ?phase, fun idx hi ha hr => ?range,
    fun idx hi ha hr hne => ?block, fun idx hi ha hne => ?round, fun hinv idx => ne_bi_of_outOfRange hinv⟩
  all_goals
    rw [hstep s w rest _ hport hi]
    obtain rfl := decode_eq_ok_iff.1 hi
  case phase => exact exec_of_not_allows (mt (allows_setPort s rest i).1 hnot) hs
  case range => exact (exec_blk_of_wset (s := s.setPort rest) ha).trans (blkEffect_of_outOfRange hr)
  case block => exact (exec_blk_of_wset (s := s.setPort rest) ha).trans (blkEffect_of_badIndex hr hne)
  case round => exact (exec_rnd_of_allows (s := s.setPort rest) ha).trans (rndEffect_of_badIndex hne)

/-! ### `FAULT` -/

/-- R217: no step but reset leaves `FAULT` or replaces the fault that it holds. -/
theorem step_keeps_fault {s t : State} (hs : s.ph = .fault) (hreset : ∀ rest, s.port ≠ .reset :: rest) (h : step s = .next t) :
    t.ph = .fault ∧ t.fc = s.fc ∧ t.fcmd = s.fcmd := by
  cases step_cases h with
  | resets rest hport => exact absurd hport (hreset rest)
  | executes w rest i _ hf | illegal w rest e _ hf => exact absurd hs hf
  | waits _ ht | discards w rest _ _ ht | writesMsg a b rest _ _ ht | writesMlen v rest _ ht | readsByte space a rest _ ht
  | readsReg r rest _ ht =>
    subst ht
    exact ⟨hs, rfl, rfl⟩

/-- Settles O44: the discarded word is `acceptWord_of_fault`, and both outputs are 0 in `FAULT`. -/
theorem faultIsSticky : Obligations.FaultIsSticky := by
  unfold Obligations.FaultIsSticky
  refine ⟨fun s w rest hs hport => ?_, fun s t hs h hreset => ?_⟩
  · exact (step_of_port_cons hport).trans (acceptWord_of_fault (s := s.setPort rest) hs)
  · obtain ⟨hph, hfc, hfcmd⟩ := step_keeps_fault hs hreset h
    exact ⟨hph, hfc, hfcmd, by simp [State.doneOut, hph], by simp [State.hashValid, hph]⟩

end Sys2Proof.Machine
end

section
/-! Reset and hazards (70_reset_and_hazards.md): the reset event (R240), and the copies that order the blocks of a message: `H` is
held while a block is in work, and `READY` is entered for one block after another (R251, R252). -/

namespace Sys2Proof.Machine

/-! ### Reset -/

/-- Settles O21: the step is `applyReset` on the queue without the event, and `applyReset` is `State.reset` but for what it keeps. -/
theorem resetEventEffect : Obligations.ResetEventEffect := by
  unfold Obligations.ResetEventEffect
  intro s rest hport
  have hstep : step s = .next (applyReset (s.setPort rest)) := step_of_port_cons hport
  have hpmsg : ∀ a, (applyReset (s.setPort rest)).pmsg.read a = none := fun _ => rfl
  exact ⟨_, hstep, rfl, rfl, rfl, rfl, rfl, rfl, rfl, rfl, rfl, rfl, hpmsg, rfl, rfl, rfl, rfl⟩

/-! ### `H` while a block is in work -/

/-- R251, for one command: besides `ACC` only `HINIT` writes `H`, and it is legal in `PADDED` alone. -/
theorem commandCase_keeps_h {s t : State} {i : Instr} (h : CommandCase s i t) (hph : s.ph ≠ .padded) (hacc : i ≠ .acc) :
    t.h = s.h := by
  cases h with
  | hinit hpadded => exact absurd hpadded hph
  | acc => exact absurd rfl hacc
  | discarded | badPhase | pad | winit | blkOutOfRange | blkBadIndex | blk | sched | rndBadIndex | rnd | fmt => rfl

/-- R251, for any word. Outside `IDLE` the word `HASH` has no effect on `H` either: it is not legal there. -/
theorem acceptWord_keeps_h {w : CommandWord} {s t : State} (h : acceptWord w s = .next t) (hidle : s.ph ≠ .idle)
    (hpadded : s.ph ≠ .padded) (hacc : decode w ≠ .ok .acc) : t.h = s.h := by
  obtain ⟨-, rfl⟩ | ⟨-, e, -, rfl⟩ | ⟨-, i, hi, he⟩ := acceptWord_next h
  · rfl
  · rfl
  · obtain hc | ⟨-, hph, -⟩ := exec_cases he
    · exact commandCase_keeps_h hc hpadded fun hia => hacc (hia ▸ hi)
    · exact absurd hph hidle

/-! ### The two ways into `READY` -/

/-- R187, for one command: `READY` is entered by `HINIT` for block 0 or by `ACC` for the block after the one absorbed. -/
theorem commandCase_into_ready {s t : State} {i : Instr} (h : CommandCase s i t) (hs : s.ph ≠ .ready) (ht : t.ph = .ready) :
    (i = .hinit ∧ s.ph = .padded ∧ t.bi = 0#56) ∨ (i = .acc ∧ s.ph = .rounds ∧ s.t.toNat = 64 ∧ t.bi = s.bi + 1#56) := by
  cases h with
  | hinit hph => exact .inl ⟨rfl, hph, rfl⟩
  | acc hph hT => exact .inr ⟨rfl, hph, hT, rfl⟩
  | discarded | rnd => exact absurd ht hs
  | badPhase | pad | winit | blkOutOfRange | blkBadIndex | blk | sched | rndBadIndex | fmt => simp at ht

/-- R187, for one step: nothing but a command enters `READY`, and not `HASH`, which ends in `FINAL` (`hashEffect_ph`). -/
theorem step_into_ready {s t : State} (h : step s = .next t) (hs : s.ph ≠ .ready) (ht : t.ph = .ready) :
    ∃ i rest, s.port = .command (encode i) :: rest ∧ CommandCase (s.setPort rest) i t := by
  cases step_cases h with
  | executes w rest i hport _ hi he =>
    obtain rfl : encode i = w := decode_eq_ok_iff.1 hi
    obtain hc | ⟨-, hph, hhash⟩ := exec_cases he
    · exact ⟨i, rest, hport, hc⟩
    · simp [hashEffect_ph hph hhash] at ht
  | illegal w rest e _ _ _ hfaulted => simp [hfaulted] at ht
  | resets rest _ hreset => simp [hreset, applyReset, State.reset] at ht
  | waits _ hsame | discards w rest _ _ hsame | writesMsg a b rest _ _ hsame | writesMlen v rest _ hsame
  | readsByte space a rest _ hsame | readsReg r rest _ hsame =>
    subst hsame
    exact absurd ht hs

/-- Settles O50: `acceptWord_keeps_h` in the three phases of a block, and the words of the two commands that enter `READY`. -/
theorem blocksChainInOrder : Obligations.BlocksChainInOrder := by
  unfold Obligations.BlocksChainInOrder
  refine ⟨fun s t w rest hph hport hacc h => ?_, fun s t h ht hs => ?_⟩
  · rw [step_of_port_cons hport] at h
    obtain ⟨hidle, hpadded⟩ : s.ph ≠ .idle ∧ s.ph ≠ .padded := by
      obtain hph | hph | hph := hph <;> simp [hph]
    exact acceptWord_keeps_h (s := s.setPort rest) h hidle hpadded hacc
  · obtain ⟨i, rest, hport, hc⟩ := step_into_ready h hs ht
    obtain ⟨rfl, hph, hbi⟩ | ⟨rfl, hph, hT, hbi⟩ := commandCase_into_ready hc hs ht
    · exact .inl ⟨rest, hport, hph, hbi⟩
    · exact .inr ⟨rest, hport, hph, hT, hbi⟩

end Sys2Proof.Machine
end
